-- ==== Sys2Proof/Word.lean ====
section
/-! DEFINITION. The byte and the magnitude domains. -/

namespace Sys2Proof

/-- A byte is 8 bits (00_scope.md R6). -/
abbrev Byte := BitVec 8

/-- The three magnitude domains of a command (00_scope.md glossary "Domain", 30_encoding.md R31). -/
inductive Dom where
  | w32
  | w64
  | wbig
  deriving DecidableEq, Repr

end Sys2Proof
end

