-- ==== Sys2Proof/Syntax.lean ====
section
/-! DEFINITION. The instructions: one constructor per row of spec/opcode_table.json. -/

namespace Sys2Proof

/-- A command with its operand, as one issue transaction carries it (30_encoding.md R30). `x` is the raw
`OPND`; each meaning takes its own view of it (R32). The seven last rows are the pseudo-commands of
30_encoding.md R38: assembler spellings of `hdr64`, which the decoder never answers. Log 2, log 12. -/
inductive Instr where
  /-- `HDR32 mt, u` (40_header.md R44). -/
  | hdr32 (mt : BitVec 3) (x : Nat)
  /-- `HDR64 mt, u` (40_header.md R45). -/
  | hdr64 (mt : BitVec 3) (x : Nat)
  /-- `HDRBIG mt, u` (40_header.md R46). -/
  | hdrbig (mt : BitVec 3) (x : Nat)
  /-- `INT32 n` (41_signed.md R49). -/
  | int32 (x : Nat)
  /-- `INT64 n` (41_signed.md R50). -/
  | int64 (x : Nat)
  /-- `INTBIG n` (41_signed.md R51). -/
  | intbig (x : Nat)
  /-- `uint V`: `hdr64 0, V` (42_value_kinds.md R55). -/
  | uint (v : Nat)
  /-- `bstr L`: `hdr64 2, L` (R56). -/
  | bstr (v : Nat)
  /-- `tstr L`: `hdr64 3, L` (R57). -/
  | tstr (v : Nat)
  /-- `array N`: `hdr64 4, N` (R58). -/
  | array (v : Nat)
  /-- `map N`: `hdr64 5, N` (R59). -/
  | map (v : Nat)
  /-- `tag T`: `hdr64 6, T` (R60). -/
  | tag (v : Nat)
  /-- `simple K`: `hdr64 7, K` (R61; 90_conflicts.md C1 settles major type 7). -/
  | simple (v : Nat)
  deriving DecidableEq, Repr

/-- The real command a spelling stands for (R38, R53; D9 "a pseudo-command is its expansion"). -/
def Instr.expand : Instr → Instr
  | .hdr32 mt x => .hdr32 mt x
  | .hdr64 mt x => .hdr64 mt x
  | .hdrbig mt x => .hdrbig mt x
  | .int32 x => .int32 x
  | .int64 x => .int64 x
  | .intbig x => .intbig x
  | .uint v => .hdr64 0 v
  | .bstr v => .hdr64 2 v
  | .tstr v => .hdr64 3 v
  | .array v => .hdr64 4 v
  | .map v => .hdr64 5 v
  | .tag v => .hdr64 6 v
  | .simple v => .hdr64 7 v

/-- The six real commands of 30_encoding.md R34. -/
def Instr.isCommand : Instr → Bool
  | .hdr32 _ _ | .hdr64 _ _ | .hdrbig _ _ | .int32 _ | .int64 _ | .intbig _ => true
  | .uint _ | .bstr _ | .tstr _ | .array _ | .map _ | .tag _ | .simple _ => false

/-- The raw operand the instruction is presented with. -/
def Instr.operand : Instr → Nat
  | .hdr32 _ x | .hdr64 _ x | .hdrbig _ x | .int32 x | .int64 x | .intbig x => x
  | .uint v | .bstr v | .tstr v | .array v | .map v | .tag v | .simple v => v

end Sys2Proof
end

