-- ==== Sys2Proof/Decode.lean ====
section
/-! DEFINITION. The decoder of 30_encoding.md R37, total on the 256 command bytes, and the encoder of R34 and R38. -/

namespace Sys2Proof

/-- Why a command byte is reserved: the three bullets of 30_encoding.md R35, in the order R37 tests them. -/
inductive Reserved where
  /-- `c[1:0] = 00`: no domain. -/
  | noDomain
  /-- `c[4:3] != 00`. -/
  | reservedBits
  /-- `c[2] = 1` and `c[7:5] != 000`: a signed command with a major type. -/
  | signedWithMajorType
  deriving DecidableEq, Repr

/-- What a command byte names (R37): a header command of a domain and a major type, or a signed one. -/
inductive Command where
  | hdr (dom : Dom) (mt : BitVec 3)
  | int (dom : Dom)
  deriving DecidableEq, Repr

/-- Field `MT`, bits `[7:5]` (R30). -/
def fieldMT (c : Byte) : BitVec 3 := c.extractLsb' 5 3

/-- Field `RSV`, bits `[4:3]` (R30). -/
def fieldRSV (c : Byte) : BitVec 2 := c.extractLsb' 3 2

/-- Field `S`, bit `[2]` (R30). -/
def fieldS (c : Byte) : Bool := c.getLsbD 2

/-- Field `DOM`, bits `[1:0]` (R30). -/
def fieldDOM (c : Byte) : BitVec 2 := c.extractLsb' 0 2

/-- `DOM`: `01` = `W32`, `10` = `W64`, `11` = `WBIG`, `00` reserved (R30). -/
def domOf (d : BitVec 2) : Option Dom :=
  if d = 1#2 then some .w32
  else if d = 2#2 then some .w64
  else if d = 3#2 then some .wbig
  else none

/-- `Decode(c)` of R37. -/
def decodeByte (c : Byte) : Except Reserved Command :=
  match domOf (fieldDOM c) with
  | none => .error .noDomain
  | some dom =>
    if fieldRSV c ≠ 0#2 then .error .reservedBits
    else if fieldS c = false then .ok (.hdr dom (fieldMT c))
    else if fieldMT c ≠ 0#3 then .error .signedWithMajorType
    else .ok (.int dom)

/-- The instruction a decoded command is with the operand `x` (R30, R34). -/
def Command.withOperand (x : Nat) : Command → Instr
  | .hdr .w32 mt => .hdr32 mt x
  | .hdr .w64 mt => .hdr64 mt x
  | .hdr .wbig mt => .hdrbig mt x
  | .int .w32 => .int32 x
  | .int .w64 => .int64 x
  | .int .wbig => .intbig x

/-- The decoder: command byte and operand to an instruction, or the name of why the byte is reserved. -/
def decode (c : Byte) (x : Nat) : Except Reserved Instr :=
  match decodeByte c with
  | .ok k => .ok (k.withOperand x)
  | .error e => .error e

/-- `CMD = (MT << 5) | low` for a header command's low five bits (R34). -/
def hdrByte (mt : BitVec 3) (low : BitVec 5) : Byte := mt ++ low

/-- The encoder: the command byte and the operand of an instruction (R34; R38 for the pseudo-commands). -/
def encode : Instr → Byte × Nat
  | .hdr32 mt x => (hdrByte mt 0b00001#5, x)
  | .hdr64 mt x => (hdrByte mt 0b00010#5, x)
  | .hdrbig mt x => (hdrByte mt 0b00011#5, x)
  | .int32 x => (0x05#8, x)
  | .int64 x => (0x06#8, x)
  | .intbig x => (0x07#8, x)
  | .uint v => (0x02#8, v)
  | .bstr v => (0x42#8, v)
  | .tstr v => (0x62#8, v)
  | .array v => (0x82#8, v)
  | .map v => (0xA2#8, v)
  | .tag v => (0xC2#8, v)
  | .simple v => (0xE2#8, v)

/-- The transaction as one number: `CMD` in bits 7..0, `OPND` in the bits from 8 up. DESIGN CHOICE, log 13. -/
def encodeWord (i : Instr) : Nat :=
  (encode i).1.toNat + 2 ^ 8 * (encode i).2

/-- The command byte in a numbered word (log 13). -/
def wordCmd (nbits w : Nat) : Byte := BitVec.ofNat 8 (w % 2 ^ nbits)

/-- The operand in a numbered word: its bits from 8 up, zeros from `nbits` up (log 13). -/
def wordOpnd (nbits w : Nat) : Nat := w % 2 ^ nbits / 2 ^ 8

/-- The instruction the decoder reads from a numbered word of `nbits` bits (bits above are 0). -/
def decodeTableWord (nbits w : Nat) : Option Instr :=
  match decode (wordCmd nbits w) (wordOpnd nbits w) with
  | .ok i => some i
  | .error _ => none

end Sys2Proof
end

