-- ==== Sys2Proof/Config.lean ====
section
/-! DEFINITION. The implementation parameters of 00_scope.md R5, and the free values the spec leaves after a reset. -/

namespace Sys2Proof

/-- `NEG_MODE`: how a negative integer becomes a magnitude (R5, R48; decision D7, left open). -/
inductive NegMode where
  | abs
  | minus1
  deriving DecidableEq, Repr, Inhabited

/-- The three parameters a model takes as arguments (R5), each with its bound, so that an illegal
choice cannot be built. `MTW`, `INFOW` and the octet width are fixed by the spec and stand in the types. -/
structure Config where
  /-- `BIGW`: width of the operand port and of the arbitrary-precision domain. -/
  bigw : Nat
  /-- `NEG_MODE`. -/
  negMode : NegMode
  /-- `SERRW`: width of the sink's error code. -/
  serrw : Nat
  bigw_ge : 65 ≤ bigw
  serrw_ge : 1 ≤ serrw
  serrw_le : serrw ≤ 16
  deriving DecidableEq, Repr

namespace Config

/-- By how much `BIGW` exceeds 65 in the machine that leaves reset: open (D3), so no value. -/
opaque bigwAbove65 : Nat

/-- `NEG_MODE` of the machine that leaves reset: open (D7), so no value. -/
opaque builtNegMode : NegMode

/-- `SERRW - 1` of the machine that leaves reset: open (D23), so no value. -/
opaque serrwLess1 : Fin 16

/-- The parameters of the machine that leaves reset (70_reset_and_hazards.md R82): any legal ones. DESIGN CHOICE, log 1. -/
def build : Config where
  bigw := 65 + bigwAbove65
  negMode := builtNegMode
  serrw := serrwLess1.val + 1
  bigw_ge := Nat.le_add_right 65 bigwAbove65
  serrw_ge := Nat.le_add_left 1 serrwLess1.val
  serrw_le := serrwLess1.isLt

/-- FREE VALUE: `OBUF` after the n-th reset (R19, I14: unspecified). Log 7. -/
opaque obufAfterReset : Nat → List Byte

/-- FREE VALUE: `OLEN` after the n-th reset (R19, I14: unspecified). Log 7. -/
opaque olenAfterReset : Nat → Nat

/-- FREE VALUE: `OIDX` after the n-th reset (R19, I14: unspecified). Log 7. -/
opaque oidxAfterReset : Nat → Nat

end Config

/-- How many bits of `OPND` a command of the domain sees (30_encoding.md R32). -/
def Dom.width (cfg : Config) : Dom → Nat
  | .w32 => 32
  | .w64 => 64
  | .wbig => cfg.bigw

end Sys2Proof
end

