-- ==== Sys2Proof/Machine/State.lean ====
section
/-! DEFINITION. Everything the spec gives the machine, as plain data: the block, its inputs, the sink stream, the parameters. -/

namespace Sys2Proof.Machine

/-- `PHASE` (10_state.md R16). -/
inductive Phase where
  | idle
  | emit
  deriving DecidableEq, Repr

/-- `STATUS.RES` (10_state.md R15). The codes 5, 6, 7 are never produced, so they have no constructor. -/
inductive Res where
  | none
  | ok
  | range
  | sink
  | illegal
  deriving DecidableEq, Repr

/-- One issue transaction: `CMD` and `OPND` presented together (R12, R13). -/
structure Issue where
  /-- `CMD`, 8 bits. -/
  cmd : Byte
  /-- `OPND`: a natural number of which the block sees the bits below `BIGW` (log 2). -/
  opnd : Nat
  deriving DecidableEq, Repr

/-- The sink's answer to the byte offered (20_memory.md R21). The port has 16 wires for the error code, of
which the low `SERRW` are connected (R14; log 10). -/
inductive Answer where
  | ok
  | err (e : BitVec 16)
  deriving DecidableEq, Repr

/-- One move of one agent (00_scope.md R8). The schedule of a run is a list of these (log 3). -/
inductive Turn where
  /-- The encoder takes its step: it accepts a waiting command if it can. -/
  | encoder
  /-- The host presents a command (R13). -/
  | present (q : Issue)
  /-- The host writes bytes to the sink itself, and the sink takes them (R54, R84; log 16). -/
  | hostWrite (bs : List Byte)
  /-- The sink answers the byte offered (R21, R22). -/
  | answer (r : Answer)
  /-- `RST` is asserted; `taken` says whether the sink takes the byte in flight (R81; log 9),
which then lands in this turn (log 24). -/
  | assertRst (taken : Bool)
  /-- `RST` is deasserted (R80). -/
  | releaseRst
  deriving DecidableEq, Repr

/-- The reasons a step can stop. -/
inductive Fault where
  /-- Raised by the emission step when `OIDX` is not an index of `OBUF`, so that there is no byte to offer:
  no state that a run reaches (log 11). SAFE: the machine stops where the spec says nothing. -/
  | noByteToOffer
  deriving DecidableEq, Repr

/-- The reasons to have no meaning. -/
inductive Refusal where
  /-- Answered by exec's arm of an instruction that has no meaning yet; no arm answers it now. SAFE. -/
  | notModelled (mnemonic : String)
  deriving DecidableEq, Repr

/-- The machine: the block (R14, R16), its inputs (R12, R80), the sink stream (R20), the parameters (R5),
and the model's own schedule and counter. `STATUS` is a view of it (Machine/Flags.lean). -/
structure State where
  /-- The build-time parameters (R5, R82): no step changes them (log 1). -/
  cfg : Config
  /-- `PHASE` (R16). -/
  phase : Phase
  /-- `STATUS.RES` (R14, R15). -/
  res : Res
  /-- `STATUS.CNT` (R14). -/
  cnt : BitVec 4
  /-- `STATUS.SERR`, zero-extended to its 16 bits (R14). -/
  serr : BitVec 16
  /-- `OBUF`: the emission of the command in progress (R16). -/
  obuf : List Byte
  /-- `OLEN` (R16). -/
  olen : Nat
  /-- `OIDX`: index of the next byte to offer (R16). -/
  oidx : Nat
  /-- `RST` is asserted (R80). -/
  rst : Bool
  /-- The commands presented and not accepted yet, oldest first (R13, R72; log 5). -/
  issues : List Issue
  /-- The sink stream, oldest byte first (R20, R27). -/
  stream : List Byte
  /-- The model's own: which agent moves next; empty: the encoder (log 3). -/
  turns : List Turn
  /-- The model's own: how often `RST` has been asserted, which the free values of log 7 are taken from. -/
  resets : Nat
  deriving DecidableEq, Repr

/-- The machine right after reset (R19, R80). `OBUF`, `OLEN`, `OIDX` are unspecified there: log 6. No command
waits, the stream is empty, nothing is scheduled: log 21. -/
def State.reset : State where
  cfg := Config.build
  phase := .idle
  res := .none
  cnt := 0
  serr := 0
  obuf := []
  olen := 0
  oidx := 0
  rst := false
  issues := []
  stream := []
  turns := []
  resets := 0

end Sys2Proof.Machine
end

