-- ==== Sys2Proof/Machine/Flags.lean ====
section
/-! DEFINITION. The STATUS register as the host reads it (10_state.md R14, R15): the block's only flags (R18). -/

namespace Sys2Proof.Machine

/-- The numeric codes of `RES` (R15). -/
def Res.code : Res → BitVec 3
  | .none => 0
  | .ok => 1
  | .range => 2
  | .sink => 3
  | .illegal => 4

/-- `BUSY` is 1 exactly when `PHASE = EMIT` (R14, R16). -/
def State.busy (s : State) : BitVec 1 :=
  match s.phase with
  | .idle => 0
  | .emit => 1

/-- `STATUS = {SERR16, 0x00, CNT4, RES3, BUSY1}` (R14). -/
def State.status (s : State) : BitVec 32 :=
  s.serr ++ 0x00#8 ++ s.cnt ++ s.res.code ++ s.busy

/-- The code the block records from the sink: the low `SERRW` of the 16 wires, zero-extended (R14; log 10). -/
def serrOf (cfg : Config) (e : BitVec 16) : BitVec 16 :=
  (e.setWidth cfg.serrw).setWidth 16

end Sys2Proof.Machine
end

