-- ==== Sys2Proof/Machine/Operands.lean ====
section
/-! DEFINITION. The operand views of 30_encoding.md R32. -/

namespace Sys2Proof.Machine

/-- The bits of `OPND` that a command of the domain sees; the bits above are ignored (R32, D4). -/
def opndField (cfg : Config) (dom : Dom) (x : Nat) : BitVec (dom.width cfg) :=
  BitVec.ofNat (dom.width cfg) x

/-- `UView(dom, x)`: the field read as an unsigned number (R6, R32). -/
def uview (cfg : Config) (dom : Dom) (x : Nat) : Nat :=
  (opndField cfg dom x).toNat

/-- `SView(dom, x)`: the field read in two's complement (R6, R32). -/
def sview (cfg : Config) (dom : Dom) (x : Nat) : Int :=
  (opndField cfg dom x).toInt

end Sys2Proof.Machine
end

