-- ==== Sys2Proof/Machine/Ops.lean ====
section
/-! DEFINITION. The shared operations: classifier, packer, serializer, sign split, acceptance, the end of a command,
the sink transaction and reset. -/

namespace Sys2Proof.Machine

/-! ## The pure functions (40_header.md section 1, 41_signed.md R48) -/

/-- `Classify(v)` (R40): the info value and the count of additional bytes; `none` is `Unencodable`. -/
def classify (v : Nat) : Option (BitVec 5 × Nat) :=
  if v < 24 then some (BitVec.ofNat 5 v, 0)
  else if v < 256 then some (24#5, 1)
  else if v < 65536 then some (25#5, 2)
  else if v < 2 ^ 32 then some (26#5, 4)
  else if v < 2 ^ 64 then some (27#5, 8)
  else none

/-- `Pack(mt, info) = (mt << 5) | info` (R41). -/
def pack (mt : BitVec 3) (info : BitVec 5) : Byte :=
  (mt.setWidth 8 <<< 5) ||| info.setWidth 8

/-- `bytes_be(v, n)` (R7): element `i` is `(v div 2^(8*(n-1-i))) mod 256`. -/
def bytesBe (v n : Nat) : List Byte :=
  (List.range n).map fun i => BitVec.ofNat 8 (v / 2 ^ (8 * (n - 1 - i)))

/-- `Header(mt, v)` (R42); `none` where `v` is unencodable. -/
def header (mt : BitVec 3) (v : Nat) : Option (List Byte) :=
  match classify v with
  | none => none
  | some (info, n) => some (pack mt info :: bytesBe v n)

/-- `SignedSplit(n, mode)` (R48), in exact integer arithmetic (D29). -/
def signedSplit (n : Int) (mode : NegMode) : BitVec 3 × Nat :=
  if 0 ≤ n then (0#3, n.toNat)
  else
    match mode with
    | .abs => (1#3, (-n).toNat)
    | .minus1 => (1#3, (-1 - n).toNat)

/-- The outcome of `Emission` (R43): what acceptance does with a command. -/
inductive Emission where
  | illegal
  | range
  | bytes (bs : List Byte)
  deriving DecidableEq, Repr

/-- The last two lines of R43: `RANGE` for an unencodable magnitude, else the header's bytes. -/
def headerEmission (mt : BitVec 3) (u : Nat) : Emission :=
  match header mt u with
  | none => .range
  | some bs => .bytes bs

/-- A signed value through the sign split to its header (R43, R49 to R51). -/
def signedEmission (n : Int) (mode : NegMode) : Emission :=
  headerEmission (signedSplit n mode).1 (signedSplit n mode).2

/-! ## Acceptance and the end of a command (R13, R70) -/

/-- The block can accept a command: `BUSY = 0` (R13) and `RST` is not asserted (R80). -/
def State.ready (s : State) : Bool :=
  !s.rst && decide (s.phase = .idle)

/-- `raise` (R7) and the end of a command (R70): the ONE way a command ends, with its result code and what
`SERR` then holds, the sink's code if the result is `SINK` (R14). The block returns to `IDLE`. -/
def State.finish (r : Res) (e : BitVec 16) (s : State) : State :=
  { s with phase := .idle, res := r, serr := e }

/-- First line of acceptance (R13): `RES <- NONE; CNT <- 0; SERR <- 0`. -/
def State.clearResult (s : State) : State :=
  { s with res := .none, cnt := 0, serr := 0 }

/-- Last line of acceptance (R13): `OBUF <- outcome; OLEN <- len(outcome); OIDX <- 0; PHASE <- EMIT`. -/
def State.startEmission (bs : List Byte) (s : State) : State :=
  { s with obuf := bs, olen := bs.length, oidx := 0, phase := .emit }

/-- Acceptance (R13) with the command's outcome. A block that is not ready takes nothing (R72, R80; log 15). -/
def State.accept (o : Emission) (s : State) : State :=
  if s.ready then
    match o with
    | .illegal => s.clearResult.finish .illegal 0
    | .range => s.clearResult.finish .range 0
    | .bytes bs => s.clearResult.startEmission bs
  else s

/-! ## The sink (R21, R22) -/

/-- The byte the block is offering to the sink, if it is offering one (R22, R80). -/
def State.offered (s : State) : Option Byte :=
  if s.rst then none
  else
    match s.phase with
    | .idle => none
    | .emit => s.obuf[s.oidx]?

/-- The sink took byte `b` (R21, R22): it is the next byte of the stream, `OIDX` and `CNT` advance, and the
command ends with `OK` at the last byte, `SERR` being what acceptance made it. -/
def State.byteTaken (b : Byte) (s : State) : State :=
  let t := { s with stream := s.stream ++ [b], oidx := s.oidx + 1, cnt := BitVec.ofNat 4 (s.oidx + 1) }
  if t.oidx = t.olen then t.finish .ok t.serr else t

/-- The sink failed the byte with code `e` (R22, R73): nothing written, nothing retried, `CNT` stays. -/
def State.byteFailed (e : BitVec 16) (s : State) : State :=
  s.finish .sink (serrOf s.cfg e)

/-- The emission step (R22) with the sink's answer `r`. An answer while nothing is offered is ignored (R81; log 17). -/
def sinkAnswers (r : Answer) (s : State) : Host.Outcome State Fault Refusal :=
  if s.rst then .next s
  else
    match s.phase with
    | .idle => .next s
    | .emit =>
      match s.obuf[s.oidx]? with
      | none => .fault .noByteToOffer
      | some b =>
        match r with
        | .ok => .next (s.byteTaken b)
        | .err e => .next (s.byteFailed e)

/-! ## The host and reset (R13, R54, R80, R81) -/

/-- The host presents a command, which waits behind those already waiting (R13, R72; log 5). -/
def State.present (q : Issue) (s : State) : State :=
  { s with issues := s.issues ++ [q] }

/-- The sink takes bytes of the host's own (R54, R84; log 16). -/
def State.hostWrite (bs : List Byte) (s : State) : State :=
  { s with stream := s.stream ++ bs }

/-- `RST` is asserted (R80, R81): the block stops at once, its state takes the values of R19 (log 8), and the byte in
flight reaches the stream or not (log 9). DESIGN CHOICE, log 24: a byte in flight that the sink takes lands here, at the
assertion, never after host bytes written later. `OBUF`, `OLEN`, `OIDX` take free values (log 7). -/
def State.assertRst (taken : Bool) (s : State) : State :=
  { s with
    stream := if taken then s.stream ++ s.offered.toList else s.stream
    phase := .idle
    res := .none
    cnt := 0
    serr := 0
    obuf := Config.obufAfterReset s.resets
    olen := Config.olenAfterReset s.resets
    oidx := Config.oidxAfterReset s.resets
    rst := true
    resets := s.resets + 1 }

/-- `RST` is deasserted (R80). -/
def State.releaseRst (s : State) : State :=
  { s with rst := false }

end Sys2Proof.Machine
end

