-- ==== Sys2Proof/Machine/Header.lean ====
section
/-! DEFINITION. The unsigned header commands HDR32, HDR64, HDRBIG (40_header.md R44 to R46). -/

namespace Sys2Proof.Machine

/-- `HDR32 mt, u` with `u = uint(OPND[31:0])` (R44). -/
def execHdr32 (mt : BitVec 3) (x : Nat) (s : State) : Host.Outcome State Fault Refusal :=
  .next (s.accept (headerEmission mt (uview s.cfg .w32 x)))

/-- `HDR64 mt, u` with `u = uint(OPND[63:0])` (R45). -/
def execHdr64 (mt : BitVec 3) (x : Nat) (s : State) : Host.Outcome State Fault Refusal :=
  .next (s.accept (headerEmission mt (uview s.cfg .w64 x)))

/-- `HDRBIG mt, u` with `u = uint(OPND[BIGW-1:0])`; `RANGE` for `u >= 2^64` (R46). -/
def execHdrbig (mt : BitVec 3) (x : Nat) (s : State) : Host.Outcome State Fault Refusal :=
  .next (s.accept (headerEmission mt (uview s.cfg .wbig x)))

end Sys2Proof.Machine
end

