-- ==== Sys2Proof/Machine/Kinds.lean ====
section
/-! DEFINITION. The value-kind pseudo-commands (42_value_kinds.md R53, R55 to R61). -/

namespace Sys2Proof.Machine

/-- What each pseudo-command does (R53): the header of its major type and its 64-bit value, and nothing else. -/
def kindHeader (mt : BitVec 3) (v : Nat) (s : State) : State :=
  s.accept (headerEmission mt (uview s.cfg .w64 v))

/-- `uint V`: unsigned integer, major type 0 (R55). -/
def execUint (v : Nat) (s : State) : Host.Outcome State Fault Refusal := .next (kindHeader 0 v s)

/-- `bstr L`: byte-string header, major type 2 (R56). The payload is the host's (R54). -/
def execBstr (v : Nat) (s : State) : Host.Outcome State Fault Refusal := .next (kindHeader 2 v s)

/-- `tstr L`: text-string header, major type 3 (R57). The payload is the host's (R54). -/
def execTstr (v : Nat) (s : State) : Host.Outcome State Fault Refusal := .next (kindHeader 3 v s)

/-- `array N`: array header, major type 4 (R58). -/
def execArray (v : Nat) (s : State) : Host.Outcome State Fault Refusal := .next (kindHeader 4 v s)

/-- `map N`: map header, major type 5 (R59). -/
def execMap (v : Nat) (s : State) : Host.Outcome State Fault Refusal := .next (kindHeader 5 v s)

/-- `tag T`: semantic tag, major type 6 (R60). -/
def execTag (v : Nat) (s : State) : Host.Outcome State Fault Refusal := .next (kindHeader 6 v s)

/-- `simple K`: special or simple value, major type 7 (R61, 90_conflicts.md C1). -/
def execSimple (v : Nat) (s : State) : Host.Outcome State Fault Refusal := .next (kindHeader 7 v s)

end Sys2Proof.Machine
end

