-- ==== Sys2Proof/Machine/Signed.lean ====
section
/-! DEFINITION. The signed integer commands INT32, INT64, INTBIG (41_signed.md R49 to R51). -/

namespace Sys2Proof.Machine

/-- `INT32 n` with `n = sint(OPND[31:0])` (R49). -/
def execInt32 (x : Nat) (s : State) : Host.Outcome State Fault Refusal :=
  .next (s.accept (signedEmission (sview s.cfg .w32 x) s.cfg.negMode))

/-- `INT64 n` with `n = sint(OPND[63:0])` (R50). -/
def execInt64 (x : Nat) (s : State) : Host.Outcome State Fault Refusal :=
  .next (s.accept (signedEmission (sview s.cfg .w64 x) s.cfg.negMode))

/-- `INTBIG n` with `n = sint(OPND[BIGW-1:0])`; `RANGE` for a magnitude of 2^64 or more (R51). -/
def execIntbig (x : Nat) (s : State) : Host.Outcome State Fault Refusal :=
  .next (s.accept (signedEmission (sview s.cfg .wbig x) s.cfg.negMode))

end Sys2Proof.Machine
end

