-- ==== Sys2Proof/Machine/Dispatch.lean ====
section
/-! DEFINITION. The meaning of each instruction: its acceptance by the block (10_state.md R13). -/

namespace Sys2Proof.Machine

def exec (i : Instr) (s : State) : Host.Outcome State Fault Refusal :=
  match i with
  -- the unsigned header commands
  | .hdr32 mt x => Sys2Proof.Machine.execHdr32 mt x s
  | .hdr64 mt x => Sys2Proof.Machine.execHdr64 mt x s
  | .hdrbig mt x => Sys2Proof.Machine.execHdrbig mt x s
  -- the signed integer commands
  | .int32 x => Sys2Proof.Machine.execInt32 x s
  | .int64 x => Sys2Proof.Machine.execInt64 x s
  | .intbig x => Sys2Proof.Machine.execIntbig x s
  -- the value-kind pseudo-commands
  | .uint v => Sys2Proof.Machine.execUint v s
  | .bstr v => Sys2Proof.Machine.execBstr v s
  | .tstr v => Sys2Proof.Machine.execTstr v s
  | .array v => Sys2Proof.Machine.execArray v s
  | .map v => Sys2Proof.Machine.execMap v s
  | .tag v => Sys2Proof.Machine.execTag v s
  | .simple v => Sys2Proof.Machine.execSimple v s

end Sys2Proof.Machine
end

