-- ==== Sys2Proof/Machine/Encoder.lean ====
section
/-! DEFINITION. The encoder agent's acceptance of a waiting command, the moves of the other agents, and the one
generic routine `Emission` of 40_header.md R43. -/

namespace Sys2Proof.Machine

/-- `Emission(c, x, mode)` (R43): a function of the command byte, the operand and the parameters. -/
def emission (cfg : Config) (c : Byte) (x : Nat) : Emission :=
  match decodeByte c with
  | .error _ => .illegal
  | .ok (.hdr dom mt) => headerEmission mt (uview cfg dom x)
  | .ok (.int dom) => signedEmission (sview cfg dom x) cfg.negMode

/-- A decoded command runs; a reserved byte is accepted and ends at once with `ILLEGAL`, its operand not
read (R35, R74). -/
def runIssue (q : Issue) (s : State) : Host.Outcome State Fault Refusal :=
  match decode q.cmd q.opnd with
  | .ok i => exec i s
  | .error _ => .next (s.accept .illegal)

/-- The encoder's turn: when it is ready it takes the oldest waiting command (R13). While it emits it waits
for the sink (R23), while idle for the host, while `RST` is asserted for its release (R80); log 4. -/
def encoderTurn (s : State) : Host.Outcome State Fault Refusal :=
  if s.ready then
    match s.issues with
    | [] => .next s
    | q :: rest => runIssue q { s with issues := rest }
  else .next s

/-- One agent's move. -/
def takeTurn (t : Turn) (s : State) : Host.Outcome State Fault Refusal :=
  match t with
  | .encoder => encoderTurn s
  | .present q => .next (s.present q)
  | .hostWrite bs => .next (s.hostWrite bs)
  | .answer r => sinkAnswers r s
  | .assertRst taken => .next (s.assertRst taken)
  | .releaseRst => .next s.releaseRst

/-- The machine with an issue as the very next thing the encoder accepts: it waits at the front, the block is
ready, and the encoder moves next. Log 14. -/
def State.withIssue (q : Issue) (s : State) : State :=
  { s with issues := q :: s.issues, phase := .idle, rst := false, turns := .encoder :: s.turns }

end Sys2Proof.Machine
end

