-- ==== Sys2Proof/Machine/Step.lean ====
section
/-! DEFINITION. One step of the machine, and where a table word is placed to be the next instruction. -/

namespace Sys2Proof.Machine

/-- One step: the agent the schedule names moves; with nothing scheduled the encoder moves (R8; log 3). -/
def step (s : State) : Host.Outcome State Fault Refusal :=
  match s.turns with
  | [] => encoderTurn s
  | t :: rest => takeTurn t { s with turns := rest }

/-- `s` with the instruction of a numbered word presented so that the next step accepts it (log 13, log 14). -/
def State.withFetchWord (s : State) (nbits w : Nat) : State :=
  s.withIssue ⟨wordCmd nbits w, wordOpnd nbits w⟩

end Sys2Proof.Machine
end

