-- ==== Sys2Proof/Machine/Assembler.lean ====
section
/-! DEFINITION. The assembler of 30_encoding.md R38: operand limits, encodings, and the text of a line. -/

namespace Sys2Proof.Machine

/-- The seven value kinds that have a pseudo-command (R38). -/
inductive Kind where
  | uint
  | bstr
  | tstr
  | array
  | map
  | tag
  | simple
  deriving DecidableEq, Repr

/-- A command as an assembler line writes it, its numbers not checked yet (R38). -/
inductive AsmLine where
  | hdr (dom : Dom) (mt v : Nat)
  | int (dom : Dom) (n : Int)
  | kind (k : Kind) (v : Nat)
  deriving DecidableEq, Repr

/-- Why the assembler refuses a line (R38, I5, I6). -/
inductive AsmRefusal where
  /-- A major type outside 0..7. -/
  | majorType
  /-- An operand outside its limits. -/
  | operand
  deriving DecidableEq, Repr

/-- The real command of a header line with its major type and operand. -/
def hdrInstr : Dom → BitVec 3 → Nat → Instr
  | .w32, mt, x => .hdr32 mt x
  | .w64, mt, x => .hdr64 mt x
  | .wbig, mt, x => .hdrbig mt x

/-- The real command of a signed line with its operand. -/
def intInstr : Dom → Nat → Instr
  | .w32, x => .int32 x
  | .w64, x => .int64 x
  | .wbig, x => .intbig x

/-- The pseudo-command of a kind (R55 to R61). -/
def Kind.instr : Kind → Nat → Instr
  | .uint, v => .uint v
  | .bstr, v => .bstr v
  | .tstr, v => .tstr v
  | .array, v => .array v
  | .map, v => .map v
  | .tag, v => .tag v
  | .simple, v => .simple v

/-- The instruction of a line, or why the assembler refuses it (R38). A signed operand is written in
`BIGW`-bit two's complement: `OPND = N mod 2^BIGW`. -/
def AsmLine.instr (cfg : Config) : AsmLine → Except AsmRefusal Instr
  | .hdr dom mt v =>
    if 7 < mt then .error .majorType
    else if 2 ^ dom.width cfg ≤ v then .error .operand
    else .ok (hdrInstr dom (BitVec.ofNat 3 mt) v)
  | .int dom n =>
    if n < -2 ^ (dom.width cfg - 1) ∨ 2 ^ (dom.width cfg - 1) ≤ n then .error .operand
    else .ok (intInstr dom (n % 2 ^ cfg.bigw).toNat)
  | .kind k v =>
    if 2 ^ 64 ≤ v then .error .operand
    else .ok (k.instr v)

/-- The issue transaction of an instruction (R34, R38). -/
def issueOf (i : Instr) : Issue := ⟨(encode i).1, (encode i).2⟩

/-- The assembler: a line to the command byte and operand the host presents (R38). -/
def assemble (cfg : Config) (l : AsmLine) : Except AsmRefusal Issue :=
  match l.instr cfg with
  | .error e => .error e
  | .ok i => .ok (issueOf i)

/-- The disassembler prints the real spelling (R38), with the value the command's view gives (R32). -/
def disassemble (cfg : Config) : Instr → AsmLine
  | .hdr32 mt x => .hdr .w32 mt.toNat (uview cfg .w32 x)
  | .hdr64 mt x => .hdr .w64 mt.toNat (uview cfg .w64 x)
  | .hdrbig mt x => .hdr .wbig mt.toNat (uview cfg .wbig x)
  | .int32 x => .int .w32 (sview cfg .w32 x)
  | .int64 x => .int .w64 (sview cfg .w64 x)
  | .intbig x => .int .wbig (sview cfg .wbig x)
  | .uint v => .hdr .w64 0 (uview cfg .w64 v)
  | .bstr v => .hdr .w64 2 (uview cfg .w64 v)
  | .tstr v => .hdr .w64 3 (uview cfg .w64 v)
  | .array v => .hdr .w64 4 (uview cfg .w64 v)
  | .map v => .hdr .w64 5 (uview cfg .w64 v)
  | .tag v => .hdr .w64 6 (uview cfg .w64 v)
  | .simple v => .hdr .w64 7 (uview cfg .w64 v)

/-! ## The text of a line (R38; lexical details: log 18) -/

/-- A number in decimal digits. -/
def decText (n : Nat) : List Char := Nat.toDigits 10 n

/-- A number in upper-case hexadecimal digits, at least `width` of them. -/
def hexText (width n : Nat) : List Char :=
  let ds := (Nat.toDigits 16 n).map Char.toUpper
  List.replicate (width - ds.length) '0' ++ ds

/-- An integer in decimal, with a leading `-` if it is negative. -/
def intText (n : Int) : List Char :=
  if n < 0 then '-' :: decText n.natAbs else decText n.natAbs

/-- The suffix of a spelling that names its domain. -/
def domText : Dom → List Char
  | .w32 => "32".toList
  | .w64 => "64".toList
  | .wbig => "big".toList

/-- The spelling of a kind. -/
def kindText : Kind → List Char
  | .uint => "uint".toList
  | .bstr => "bstr".toList
  | .tstr => "tstr".toList
  | .array => "array".toList
  | .map => "map".toList
  | .tag => "tag".toList
  | .simple => "simple".toList

/-- A line as text: `hdr64 2, 3`, `int32 -1`, `tag 1`. -/
def AsmLine.text : AsmLine → List Char
  | .hdr dom mt v => "hdr".toList ++ domText dom ++ [' '] ++ decText mt ++ [',', ' '] ++ decText v
  | .int dom n => "int".toList ++ domText dom ++ [' '] ++ intText n
  | .kind k v => kindText k ++ [' '] ++ decText v

/-- An encoded command is written `CMD=0xHH OPND=0x...`. -/
def Issue.text (q : Issue) : List Char :=
  "CMD=0x".toList ++ hexText 2 q.cmd.toNat ++ " OPND=0x".toList ++ hexText 1 q.opnd

/-- A line of a host program: a command or a host directive (R38). -/
inductive HostLine where
  /-- Nothing but white space and a comment. -/
  | blank
  /-- A command or pseudo-command. -/
  | command (l : AsmLine)
  /-- `wait`: poll `STATUS` until `BUSY = 0`. -/
  | wait
  /-- `payload b0 b1 ...`: write bytes straight to the sink. -/
  | payload (bs : List Byte)
  /-- `expect STATUS=0x...`: an assertion. -/
  | expect (w : BitVec 32)
  deriving DecidableEq, Repr

/-- `#` starts a comment. -/
def stripComment (cs : List Char) : List Char := cs.takeWhile fun c => c != '#'

/-- The token read so far, if there is one. -/
def flushToken (cur : List Char) : List (List Char) :=
  match cur with
  | [] => []
  | _ :: _ => [cur]

/-- Tokens: separated by white space, a comma being a token of its own. `cur` is the token read so far. -/
def tokens : List Char → List Char → List (List Char)
  | [], cur => flushToken cur
  | c :: cs, cur =>
    if c = ' ' ∨ c = '\t' ∨ c = '\r' ∨ c = '\n' then flushToken cur ++ tokens cs []
    else if c = ',' then flushToken cur ++ [[',']] ++ tokens cs []
    else tokens cs (cur ++ [c])

/-- The value of a digit in base 10 or 16. -/
def digitValue (base : Nat) (c : Char) : Option Nat :=
  let n := c.toNat
  let d := if 48 ≤ n ∧ n ≤ 57 then n - 48
    else if 97 ≤ n ∧ n ≤ 102 then n - 87
    else if 65 ≤ n ∧ n ≤ 70 then n - 55
    else 16
  if d < base then some d else none

/-- The number digits spell after those already read, which are worth `acc`. -/
def digits (base : Nat) : List Char → Nat → Option Nat
  | [], acc => some acc
  | c :: cs, acc =>
    match digitValue base c with
    | none => none
    | some d => digits base cs (acc * base + d)

/-- A number with at least one digit. -/
def number (base : Nat) (cs : List Char) : Option Nat :=
  match cs with
  | [] => none
  | _ :: _ => digits base cs 0

/-- Numbers are decimal, or hexadecimal with `0x`. -/
def natToken : List Char → Option Nat
  | '0' :: 'x' :: cs => number 16 cs
  | cs => number 10 cs

/-- A leading `-` is allowed only for `int*` operands. -/
def intToken : List Char → Option Int
  | '-' :: cs => (natToken cs).map fun n => -(n : Int)
  | cs => (natToken cs).map fun n => (n : Int)

/-- A byte of a `payload` line: one or two hexadecimal digits. -/
def byteToken (cs : List Char) : Option Byte :=
  if cs.length ≤ 2 then (number 16 cs).map (BitVec.ofNat 8) else none

/-- All bytes of a `payload` line. -/
def byteTokens : List (List Char) → Option (List Byte)
  | [] => some []
  | t :: ts =>
    match byteToken t, byteTokens ts with
    | some b, some bs => some (b :: bs)
    | _, _ => none

/-- The domain of a header spelling. -/
def hdrWord (t : List Char) : Option Dom :=
  if t = "hdr32".toList then some .w32
  else if t = "hdr64".toList then some .w64
  else if t = "hdrbig".toList then some .wbig
  else none

/-- The domain of a signed spelling. -/
def intWord (t : List Char) : Option Dom :=
  if t = "int32".toList then some .w32
  else if t = "int64".toList then some .w64
  else if t = "intbig".toList then some .wbig
  else none

/-- The kind of a pseudo spelling. -/
def kindWord (t : List Char) : Option Kind :=
  if t = "uint".toList then some .uint
  else if t = "bstr".toList then some .bstr
  else if t = "tstr".toList then some .tstr
  else if t = "array".toList then some .array
  else if t = "map".toList then some .map
  else if t = "tag".toList then some .tag
  else if t = "simple".toList then some .simple
  else none

/-- The operand of `expect`: `STATUS=` and a 32-bit number. -/
def expectWord (t : List Char) : Option (BitVec 32) :=
  if t.take 7 = "STATUS=".toList then
    match natToken (t.drop 7) with
    | some n => if n < 2 ^ 32 then some (BitVec.ofNat 32 n) else none
    | none => none
  else none

/-- A line with one operand: `int* N`, a pseudo spelling, `expect STATUS=0x...`. -/
def oneOperandLine (m a : List Char) : Option HostLine :=
  if m = "expect".toList then (expectWord a).map .expect
  else if m = "payload".toList then (byteTokens [a]).map .payload
  else
    match intWord m, kindWord m with
    | some dom, _ => (intToken a).map fun n => .command (.int dom n)
    | none, some k => (natToken a).map fun v => .command (.kind k v)
    | none, none => none

/-- A line with two operands: `hdr* MT, V`. -/
def twoOperandLine (m a b : List Char) : Option HostLine :=
  match hdrWord m, natToken a, natToken b with
  | some dom, some mt, some v => some (.command (.hdr dom mt v))
  | _, _, _ => none

/-- One line of a host program, from its tokens; `none` is no line of R38. -/
def lineOfTokens (ts : List (List Char)) : Option HostLine :=
  match ts with
  | [] => some .blank
  | [m] => if m = "wait".toList then some .wait else none
  | [m, a] => oneOperandLine m a
  | m :: a :: b :: rest =>
    if m = "payload".toList then (byteTokens (a :: b :: rest)).map .payload
    else if b = [','] then
      match rest with
      | [v] => twoOperandLine m a v
      | _ => none
    else none

/-- One line of a host program, from its characters. -/
def parseChars (cs : List Char) : Option HostLine :=
  lineOfTokens (tokens (stripComment cs) [])

/-- One line of a host program, from its text (R38: one command per line). -/
def parseLine (line : String) : Option HostLine := parseChars line.toList

end Sys2Proof.Machine
end

