-- ==== Sys2Proof/Machine/HostProgram.lean ====
section
/-! DEFINITION. What the host does with one line of a program (30_encoding.md R38; R54, R72, R84, R85). -/

namespace Sys2Proof.Machine

/-- What became of a line. -/
inductive HostMove where
  /-- The host did it and goes on. -/
  | done (s : State)
  /-- The host waits; it tries the line again later. -/
  | blocked
  /-- The assembler refuses the line. -/
  | refused (r : AsmRefusal)
  /-- An `expect` does not hold. -/
  | unexpected
  deriving DecidableEq, Repr

/-- The host at one line. While its last issue waits at the port the host waits with it (R72); `wait` waits for
`BUSY = 0`. A payload goes straight to the sink. Log 19. -/
def hostLine (l : HostLine) (s : State) : HostMove :=
  if s.issues ≠ [] then .blocked
  else
    match l with
    | .blank => .done s
    | .command a =>
      match assemble s.cfg a with
      | .error r => .refused r
      | .ok q => .done (s.present q)
    | .wait => if s.busy = 1#1 then .blocked else .done s
    | .payload bs => .done (s.hostWrite bs)
    | .expect w => if s.status = w then .done s else .unexpected

end Sys2Proof.Machine
end

