-- ==== Sys2Proof/Safety.lean ====
section
/-! DEFINITION. What claims are stated in: the invariant of a run, the host's duties, the end of a run, the width
table in plain numbers, and a reader of headers. -/

namespace Sys2Proof.Safety

open Sys2Proof.Machine

/-! ## The invariant of every run -/

/-- While `PHASE = EMIT` (R14, R15, R16): 1 to 9 bytes, `OLEN` their number, a byte left to offer,
`CNT = OIDX`, `RES = NONE`, `SERR = 0`, and `RST` not asserted (R80). -/
structure EmittingOk (s : State) : Prop where
  length_pos : 1 ≤ s.obuf.length
  length_le : s.obuf.length ≤ 9
  olen_eq : s.olen = s.obuf.length
  oidx_lt : s.oidx < s.olen
  cnt_eq : s.cnt.toNat = s.oidx
  res_none : s.res = .none
  serr_zero : s.serr = 0
  rst_low : s.rst = false

/-- What `STATUS` may hold while `PHASE = IDLE` (R15): nothing after reset, all bytes after `OK`, none after `RANGE` or
`ILLEGAL`, fewer than nine after `SINK`; an error code only after `SINK`. -/
structure ResultOk (s : State) : Prop where
  cnt_of_none : s.res = .none → s.cnt = 0
  cnt_of_ok : s.res = .ok → 1 ≤ s.cnt.toNat ∧ s.cnt.toNat ≤ 9
  cnt_of_range : s.res = .range → s.cnt = 0
  cnt_of_illegal : s.res = .illegal → s.cnt = 0
  cnt_of_sink : s.res = .sink → s.cnt.toNat ≤ 8
  serr_of_not_sink : s.res ≠ .sink → s.serr = 0

/-- The invariant of every run. -/
structure Inv (s : State) : Prop where
  /-- `SERR[31:16+SERRW] = 0` (R14). -/
  serr_fits : s.serr.toNat < 2 ^ s.cfg.serrw
  emitting : s.phase = .emit → EmittingOk s
  idle : s.phase = .idle → ResultOk s
  /-- While `RST` is asserted the block holds its reset values (R80). -/
  in_reset : s.rst = true → s.phase = .idle ∧ s.status = 0

/-! ## Runs, ends and duties -/

/-- So many steps, stopping at the first that gives no next state. -/
def steps : Nat → State → Host.Outcome State Fault Refusal
  | 0, s => .next s
  | k + 1, s =>
    match step s with
    | .next t => steps k t
    | .fault r => .fault r
    | .refused r => .refused r

/-- A run has ended (R83): no command left to issue, none waiting, and `PHASE = IDLE`. -/
def Ended (s : State) : Prop :=
  (∀ q, Turn.present q ∉ s.turns) ∧ s.issues = [] ∧ s.phase = .idle

/-- The host keeps R84 at the next step: it does not write to the sink while `BUSY = 1`. -/
def HostKeepsOff (s : State) : Prop :=
  s.phase = .emit → ∀ bs rest, s.turns ≠ .hostWrite bs :: rest

/-- What the host owes the stream after a header (R87). -/
inductive Duty where
  | nothing
  /-- So many payload bytes. -/
  | payload (n : Nat)
  /-- So many values. -/
  | values (n : Nat)
  deriving DecidableEq, Repr

/-- The duty a header of major type `mt` and magnitude `v` announces (R87). -/
def dutyOf (mt : BitVec 3) (v : Nat) : Duty :=
  match mt.toNat with
  | 2 | 3 => .payload v
  | 4 => .values v
  | 5 => .values (2 * v)
  | 6 => .values 1
  | _ => .nothing

/-- What stands in the sink stream, as its writers mean it: headers of the block, payload of the host. -/
inductive Entry where
  | header (mt : BitVec 3) (v : Nat)
  | payload (n : Nat)
  deriving DecidableEq, Repr

/-- The stream keeps the duties of R87 to its end, `need` values and `owed` payload bytes being due at its start.
The block checks none of this (R76); log 20. -/
def dutiesKept : List Entry → (need owed : Nat) → Bool
  | [], need, owed => need == 0 && owed == 0
  | .payload n :: rest, need, owed => decide (n ≤ owed) && dutiesKept rest need (owed - n)
  | .header mt v :: rest, need, owed =>
    owed == 0 && decide (1 ≤ need) &&
      match dutyOf mt v with
      | .nothing => dutiesKept rest (need - 1) 0
      | .payload n => dutiesKept rest (need - 1) n
      | .values n => dutiesKept rest (need - 1 + n) 0

/-! ## A host's run, command by command -/

/-- The bytes an outcome offers to the sink: none for `illegal` and `range` (R71, R74). -/
def bytesOf : Emission → List Byte
  | .illegal => []
  | .range => []
  | .bytes bs => bs

/-- One command of a host's run: its issue, the byte the sink fails with which code if it fails one, and what the
host writes to the sink once the command has ended. -/
structure Job where
  issue : Issue
  failAt : Option (Nat × BitVec 16)
  payload : List Byte
  deriving DecidableEq, Repr

/-- The emission of the job's command. -/
def Job.emitted (cfg : Config) (j : Job) : List Byte :=
  bytesOf (emission cfg j.issue.cmd j.issue.opnd)

/-- The sink's answers: `ok` up to the byte it fails, or to every byte if that byte is not reached. -/
def Job.answers (cfg : Config) (j : Job) : List Turn :=
  match j.failAt with
  | none => List.replicate (j.emitted cfg).length (.answer .ok)
  | some (k, e) =>
    if k < (j.emitted cfg).length then List.replicate k (.answer .ok) ++ [.answer (.err e)]
    else List.replicate (j.emitted cfg).length (.answer .ok)

/-- The job's emission up to its first failed byte (R27). -/
def Job.taken (cfg : Config) (j : Job) : List Byte :=
  match j.failAt with
  | none => j.emitted cfg
  | some (k, _) => (j.emitted cfg).take k

/-- The moves of the three agents for the job: acceptance, the sink's answers, the host's payload. -/
def Job.turns (cfg : Config) (j : Job) : List Turn :=
  .encoder :: (j.answers cfg ++ [.hostWrite j.payload])

/-! ## Values, the width table and a reader -/

/-- The low `w` bits of `x` read in two's complement, in plain numbers (R6 `sint`). -/
def signedValue (w x : Nat) : Int :=
  if x % 2 ^ w < 2 ^ (w - 1) then ((x % 2 ^ w : Nat) : Int) else ((x % 2 ^ w : Nat) : Int) - 2 ^ w

/-- The table of R40 with R41 and R24, written out in numbers: the bytes of a header, most significant byte first. -/
def tableBytes (mt v : Nat) : Option (List Nat) :=
  if v ≤ 23 then some [32 * mt + v]
  else if v ≤ 255 then some [32 * mt + 24, v]
  else if v ≤ 65535 then some [32 * mt + 25, v / 256, v % 256]
  else if v ≤ 4294967295 then
    some [32 * mt + 26, v / 2 ^ 24, v / 2 ^ 16 % 256, v / 2 ^ 8 % 256, v % 256]
  else if v ≤ 18446744073709551615 then
    some [32 * mt + 27, v / 2 ^ 56, v / 2 ^ 48 % 256, v / 2 ^ 40 % 256, v / 2 ^ 32 % 256,
      v / 2 ^ 24 % 256, v / 2 ^ 16 % 256, v / 2 ^ 8 % 256, v % 256]
  else none

/-- The number big-endian bytes spell (R24). -/
def beValue (bs : List Byte) : Nat := bs.foldl (fun a b => a * 256 + b.toNat) 0

/-- How many additional bytes an info value announces (R40); none for 28 to 31. -/
def additional (info : Nat) : Option Nat :=
  if info < 24 then some 0
  else if info = 24 then some 1
  else if info = 25 then some 2
  else if info = 26 then some 4
  else if info = 27 then some 8
  else none

/-- A reader of headers, by the table of R40 alone: major type, magnitude and what follows. It is no part of the
block (R4); log 20. -/
def readHeader : List Byte → Option (BitVec 3 × Nat × List Byte)
  | [] => none
  | h :: rest =>
    let info := (h.extractLsb' 0 5).toNat
    match additional info with
    | none => none
    | some 0 => some (h.extractLsb' 5 3, info, rest)
    | some n =>
      if rest.length < n then none
      else some (h.extractLsb' 5 3, beValue (rest.take n), rest.drop n)

/-- The integer that a decoder which applies the canonical transform reads: major type 1 with magnitude `m` as `-1-m` (R52). -/
def canonicalInt (mt : BitVec 3) (m : Nat) : Int :=
  if mt = 1#3 then -1 - (m : Int) else (m : Int)

end Sys2Proof.Safety
end

