-- ==== Sys2Proof/WellFormed.lean ====
section
/-! DEFINITION. Which instructions can be presented: the checks on an operand. -/

namespace Sys2Proof

/-- The operand fits the `BIGW`-bit port (30_encoding.md R30). -/
def fitsPort (cfg : Config) (x : Nat) : Bool :=
  decide (x < 2 ^ cfg.bigw)

/-- The operand of a pseudo-command is in the 64-bit domain (42_value_kinds.md R53). -/
def fitsKind (v : Nat) : Bool :=
  decide (v < 2 ^ 64)

/-- A real command takes any operand its port can carry (bits above its view are ignored, R32); a
pseudo-command takes a 64-bit one (R53). A major type outside 0..7 cannot be presented (R31). -/
def Instr.wellFormed (cfg : Config) : Instr → Bool
  | .hdr32 _ x => fitsPort cfg x
  | .hdr64 _ x => fitsPort cfg x
  | .hdrbig _ x => fitsPort cfg x
  | .int32 x => fitsPort cfg x
  | .int64 x => fitsPort cfg x
  | .intbig x => fitsPort cfg x
  | .uint v => fitsKind v
  | .bstr v => fitsKind v
  | .tstr v => fitsKind v
  | .array v => fitsKind v
  | .map v => fitsKind v
  | .tag v => fitsKind v
  | .simple v => fitsKind v

end Sys2Proof
end

