-- ==== Sys2Proof/Certificates/Slice0/Obligations.lean ====
section
/-! DEFINITION. The statements for the provers, from the numbered rules of spec/. -/

open Sys2Proof Sys2Proof.Machine Sys2Proof.Safety

/-! ## Encoding -/

/-- R34, R37 and 95_test_vectors.md 2.6: words written out from the encoding tables decode to the commands they
stand for, and reserved ones to none. A word of more than 8 bits carries its operand from bit 8 up (log 13). -/
def Obligations.SampleWordsDecode : Prop :=
  decodeTableWord 8 0b00000001 = some (.hdr32 0 0) ∧
  decodeTableWord 8 0b11100001 = some (.hdr32 7 0) ∧
  decodeTableWord 8 0b01000010 = some (.hdr64 2 0) ∧
  decodeTableWord 8 0b11100011 = some (.hdrbig 7 0) ∧
  decodeTableWord 8 0b00000101 = some (.int32 0) ∧
  decodeTableWord 8 0b00000110 = some (.int64 0) ∧
  decodeTableWord 8 0b00000111 = some (.intbig 0) ∧
  decodeTableWord 136 (0b10000010 + 256 * 0x19) = some (.hdr64 4 25) ∧
  decodeTableWord 8 0b00000000 = none ∧
  decodeTableWord 8 0b00000100 = none ∧
  decodeTableWord 8 0b00100101 = none ∧
  decodeTableWord 8 0b00001001 = none ∧
  decodeTableWord 8 0b11111111 = none

/-- R34, R38, R53: every instruction that can be presented, written as a word and decoded, is the real command it
stands for, with every operand bit; a real command stands for itself. -/
def Obligations.DecodeEncodeRoundTrip : Prop :=
  ∀ (cfg : Config) (i : Instr), i.wellFormed cfg = true →
    decodeTableWord (8 + cfg.bigw) (encodeWord i) = some i.expand ∧
      (i.isCommand = true → i.expand = i)

/-- R34 "A command byte matches at most one row": the only instruction a transaction decodes to is a real command,
and its encoding is the transaction. -/
def Obligations.DecodedTransactionIsItsEncoding : Prop :=
  ∀ (c : Byte) (x : Nat) (i : Instr), decode c x = .ok i → encode i = (c, x) ∧ i.isCommand = true

/-- R34: of the 256 command bytes exactly 27 are commands. -/
def Obligations.TwentySevenCommandBytes : Prop :=
  ((List.range 256).filter fun c => (decodeTableWord 8 c).isSome).length = 27

/-- R35, R37: a byte is rejected exactly on the three conditions, and each under its own name. -/
def Obligations.ReservedBytesByName : Prop :=
  ∀ (c : Byte) (x : Nat),
    (decode c x = .error .noDomain ↔ c.toNat % 4 = 0) ∧
    (decode c x = .error .reservedBits ↔ c.toNat % 4 ≠ 0 ∧ c.toNat / 8 % 4 ≠ 0) ∧
    (decode c x = .error .signedWithMajorType ↔
      c.toNat % 4 ≠ 0 ∧ c.toNat / 8 % 4 = 0 ∧ c.toNat / 4 % 2 = 1 ∧ c.toNat / 32 ≠ 0)

/-- R38: the assembler takes exactly the operands inside the limits of the spelling, and the transaction it writes
decodes to the command of that spelling whose view of the operand is the number written. -/
def Obligations.AssembledOperandIsTheNumberWritten : Prop :=
  (∀ (cfg : Config) (dom : Dom) (mt v : Nat),
    ((∃ q, assemble cfg (.hdr dom mt v) = .ok q) ↔ mt ≤ 7 ∧ v < 2 ^ dom.width cfg) ∧
    ∀ q, assemble cfg (.hdr dom mt v) = .ok q →
      decode q.cmd q.opnd = .ok (hdrInstr dom (BitVec.ofNat 3 mt) q.opnd) ∧ uview cfg dom q.opnd = v) ∧
  (∀ (cfg : Config) (dom : Dom) (n : Int),
    ((∃ q, assemble cfg (.int dom n) = .ok q) ↔
      -2 ^ (dom.width cfg - 1) ≤ n ∧ n < 2 ^ (dom.width cfg - 1)) ∧
    ∀ q, assemble cfg (.int dom n) = .ok q →
      decode q.cmd q.opnd = .ok (intInstr dom q.opnd) ∧ sview cfg dom q.opnd = n ∧ q.opnd < 2 ^ cfg.bigw) ∧
  (∀ (cfg : Config) (k : Kind) (v : Nat),
    ((∃ q, assemble cfg (.kind k v) = .ok q) ↔ v < 2 ^ 64) ∧
    ∀ q, assemble cfg (.kind k v) = .ok q → decode q.cmd q.opnd = .ok (k.instr v).expand)

/-- R38, R32: what the disassembler prints for an instruction, the assembler takes, and the command it then writes does
in every state exactly what the instruction does. -/
def Obligations.DisassemblyKeepsTheMeaning : Prop :=
  ∀ (cfg : Config) (i : Instr), ∃ q j, assemble cfg (disassemble cfg i) = .ok q ∧
    decode q.cmd q.opnd = .ok j ∧ ∀ s : State, s.cfg = cfg → exec j s = exec i s

/-! ## Classifier, packer, serializer, reader -/

/-- R40: the table row by row, no encoding from 2^64 on, and minimality: fewer additional bytes never hold the value. -/
def Obligations.ClassifierFollowsTheTable : Prop :=
  (∀ v, v < 24 → classify v = some (BitVec.ofNat 5 v, 0)) ∧
  (∀ v, 24 ≤ v → v ≤ 255 → classify v = some (24#5, 1)) ∧
  (∀ v, 256 ≤ v → v ≤ 65535 → classify v = some (25#5, 2)) ∧
  (∀ v, 65536 ≤ v → v ≤ 2 ^ 32 - 1 → classify v = some (26#5, 4)) ∧
  (∀ v, 2 ^ 32 ≤ v → v ≤ 2 ^ 64 - 1 → classify v = some (27#5, 8)) ∧
  (∀ v, 2 ^ 64 ≤ v → classify v = none) ∧
  (∀ v info n, classify v = some (info, n) → n ≠ 0 →
    v < 2 ^ (8 * n) ∧ 24 ≤ v ∧ ∀ m ∈ [1, 2, 4, 8], m < n → 2 ^ (8 * m) ≤ v)

/-- R41: the octet is `(mt << 5) | info` with `mt` in bits 7..5 and `info` in bits 4..0, and no info the classifier
gives is 28, 29, 30 or 31. -/
def Obligations.PackerKeepsBothFields : Prop :=
  (∀ (mt : BitVec 3) (info : BitVec 5),
    (pack mt info).toNat = mt.toNat <<< 5 ||| info.toNat ∧
    (pack mt info).extractLsb' 5 3 = mt ∧ (pack mt info).extractLsb' 0 5 = info) ∧
  (∀ v info n, classify v = some (info, n) → info.toNat ≤ 27)

/-- R42 with R24 and R7: below 2^64 the header is the octet and the additional bytes in the order of the table, most
significant first; its length is 1, 2, 3, 5 or 9; from 2^64 on there is none. -/
def Obligations.HeaderBytesFollowTheTable : Prop :=
  ∀ (mt : BitVec 3) (v : Nat),
    (v < 2 ^ 64 → ∃ bs, header mt v = some bs ∧
      tableBytes mt.toNat v = some (bs.map BitVec.toNat) ∧
      bs.length ∈ [1, 2, 3, 5, 9] ∧ (24 ≤ v → beValue bs.tail = v)) ∧
    (2 ^ 64 ≤ v → header mt v = none)

/-- R42: a reader that knows only the table of R40 recovers the major type, the magnitude and what follows, from any
header in front of any bytes; so no two headers are the same and none is the beginning of another. -/
def Obligations.ReaderRecoversHeader : Prop :=
  ∀ (mt : BitVec 3) (v : Nat) (bs rest : List Byte),
    header mt v = some bs → readHeader (bs ++ rest) = some (mt, v, rest)

/-! ## Sign split -/

/-- R48: the split under both modes in exact arithmetic; for a negative value in two's complement the magnitude
`-1-n` is the bitwise complement. -/
def Obligations.SignSplit : Prop :=
  (∀ (n : Int) (mode : NegMode), 0 ≤ n →
    (signedSplit n mode).1 = 0#3 ∧ ((signedSplit n mode).2 : Int) = n) ∧
  (∀ n : Int, n < 0 → (signedSplit n .abs).1 = 1#3 ∧ ((signedSplit n .abs).2 : Int) = -n) ∧
  (∀ n : Int, n < 0 → (signedSplit n .minus1).1 = 1#3 ∧ ((signedSplit n .minus1).2 : Int) = -1 - n) ∧
  (∀ (w : Nat) (b : BitVec w), b.toInt < 0 → (signedSplit b.toInt .minus1).2 = (~~~b).toNat)

/-- R52, its four laws: non-negative values as `HDR64 0, n`; major type 1 for negative ones; under `MINUS1` the map is
injective and the canonical reader recovers `n`; under `ABS` no header `0x20`, and the canonical reader gets `n - 1`.
`signedEmission n mode` is what the three commands accept for their value `n` (first clause). -/
def Obligations.LawsOfTheSignedCommands : Prop :=
  (∀ (s : State) (x : Nat),
    exec (.int32 x) s = .next (s.accept (signedEmission (signedValue 32 x) s.cfg.negMode)) ∧
    exec (.int64 x) s = .next (s.accept (signedEmission (signedValue 64 x) s.cfg.negMode)) ∧
    exec (.intbig x) s = .next (s.accept (signedEmission (signedValue s.cfg.bigw x) s.cfg.negMode))) ∧
  (∀ (s : State) (n : Nat),
    (n < 2 ^ 31 → exec (.int32 n) s = exec (.hdr64 0 n) s) ∧
    (n < 2 ^ 63 → exec (.int64 n) s = exec (.hdr64 0 n) s) ∧
    (n < 2 ^ 64 → exec (.intbig n) s = exec (.hdr64 0 n) s)) ∧
  (∀ (n : Int) (mode : NegMode) (bs : List Byte), n < 0 → signedEmission n mode = .bytes bs →
    bs.head?.map fieldMT = some 1#3) ∧
  (∀ (n : Int) (bs rest : List Byte), signedEmission n .minus1 = .bytes bs →
    (∃ mt m, readHeader (bs ++ rest) = some (mt, m, rest) ∧ canonicalInt mt m = n) ∧
    ∀ k : Int, signedEmission k .minus1 = .bytes bs → k = n) ∧
  (∀ (n : Int) (bs rest : List Byte), signedEmission n .abs = .bytes bs →
    bs ≠ [0x20#8] ∧
    (n < 0 → ∃ mt m, readHeader (bs ++ rest) = some (mt, m, rest) ∧ canonicalInt mt m = n - 1))

/-! ## The commands: what acceptance leaves -/

/-- R44, acceptance: `HDR32` on a ready block starts the emission of the header of `OPND[31:0]`; bits above are
ignored, and nothing else of the machine changes. -/
def Obligations.Hdr32StartsItsHeader : Prop :=
  ∀ (s : State) (mt : BitVec 3) (x : Nat), s.rst = false → s.phase = .idle →
    ∃ bs, tableBytes mt.toNat (x % 2 ^ 32) = some (bs.map BitVec.toNat) ∧
      exec (.hdr32 mt x) s = .next { s with
        res := .none, cnt := 0, serr := 0, obuf := bs, olen := bs.length, oidx := 0, phase := .emit }

/-- R45, acceptance: `HDR64` likewise with `OPND[63:0]`. -/
def Obligations.Hdr64StartsItsHeader : Prop :=
  ∀ (s : State) (mt : BitVec 3) (x : Nat), s.rst = false → s.phase = .idle →
    ∃ bs, tableBytes mt.toNat (x % 2 ^ 64) = some (bs.map BitVec.toNat) ∧
      exec (.hdr64 mt x) s = .next { s with
        res := .none, cnt := 0, serr := 0, obuf := bs, olen := bs.length, oidx := 0, phase := .emit }

/-- R46, acceptance: `HDRBIG` takes all of `OPND`; below 2^64 it starts the header, from 2^64 on it ends at once with
`RANGE`, and in both cases nothing else of the machine changes. -/
def Obligations.HdrbigStartsItsHeaderOrEndsInRange : Prop :=
  ∀ (s : State) (mt : BitVec 3) (x : Nat), s.rst = false → s.phase = .idle →
    (x % 2 ^ s.cfg.bigw < 2 ^ 64 →
      ∃ bs, tableBytes mt.toNat (x % 2 ^ s.cfg.bigw) = some (bs.map BitVec.toNat) ∧
        exec (.hdrbig mt x) s = .next { s with
          res := .none, cnt := 0, serr := 0, obuf := bs, olen := bs.length, oidx := 0, phase := .emit }) ∧
    (2 ^ 64 ≤ x % 2 ^ s.cfg.bigw →
      exec (.hdrbig mt x) s = .next { s with res := .range, cnt := 0, serr := 0, phase := .idle })

/-- R49, acceptance: `INT32` starts the header of `sint(OPND[31:0])` under `NEG_MODE`. -/
def Obligations.Int32StartsItsHeader : Prop :=
  ∀ (s : State) (x : Nat), s.rst = false → s.phase = .idle →
    ∃ bs,
      (0 ≤ signedValue 32 x →
        tableBytes 0 (signedValue 32 x).toNat = some (bs.map BitVec.toNat)) ∧
      (signedValue 32 x < 0 → s.cfg.negMode = .abs →
        tableBytes 1 (-signedValue 32 x).toNat = some (bs.map BitVec.toNat)) ∧
      (signedValue 32 x < 0 → s.cfg.negMode = .minus1 →
        tableBytes 1 (-1 - signedValue 32 x).toNat = some (bs.map BitVec.toNat)) ∧
      exec (.int32 x) s = .next { s with
        res := .none, cnt := 0, serr := 0, obuf := bs, olen := bs.length, oidx := 0, phase := .emit }

/-- R50, acceptance: `INT64` likewise with `sint(OPND[63:0])`. -/
def Obligations.Int64StartsItsHeader : Prop :=
  ∀ (s : State) (x : Nat), s.rst = false → s.phase = .idle →
    ∃ bs,
      (0 ≤ signedValue 64 x →
        tableBytes 0 (signedValue 64 x).toNat = some (bs.map BitVec.toNat)) ∧
      (signedValue 64 x < 0 → s.cfg.negMode = .abs →
        tableBytes 1 (-signedValue 64 x).toNat = some (bs.map BitVec.toNat)) ∧
      (signedValue 64 x < 0 → s.cfg.negMode = .minus1 →
        tableBytes 1 (-1 - signedValue 64 x).toNat = some (bs.map BitVec.toNat)) ∧
      exec (.int64 x) s = .next { s with
        res := .none, cnt := 0, serr := 0, obuf := bs, olen := bs.length, oidx := 0, phase := .emit }

/-- R51, acceptance: `INTBIG` takes `sint(OPND[BIGW-1:0])`. It ends at once with `RANGE` for `n >= 2^64`, for
`n <= -2^64` under `ABS`, for `n <= -2^64-1` under `MINUS1`; else it starts the header. -/
def Obligations.IntbigStartsItsHeaderOrEndsInRange : Prop :=
  ∀ (s : State) (x : Nat) (n : Int), s.rst = false → s.phase = .idle → n = signedValue s.cfg.bigw x →
    (2 ^ 64 ≤ n ∨ (s.cfg.negMode = .abs ∧ n ≤ -2 ^ 64) ∨ (s.cfg.negMode = .minus1 ∧ n ≤ -2 ^ 64 - 1) →
      exec (.intbig x) s = .next { s with res := .range, cnt := 0, serr := 0, phase := .idle }) ∧
    (¬ (2 ^ 64 ≤ n ∨ (s.cfg.negMode = .abs ∧ n ≤ -2 ^ 64) ∨ (s.cfg.negMode = .minus1 ∧ n ≤ -2 ^ 64 - 1)) →
      ∃ bs,
        (0 ≤ n → tableBytes 0 n.toNat = some (bs.map BitVec.toNat)) ∧
        (n < 0 → s.cfg.negMode = .abs → tableBytes 1 (-n).toNat = some (bs.map BitVec.toNat)) ∧
        (n < 0 → s.cfg.negMode = .minus1 → tableBytes 1 (-1 - n).toNat = some (bs.map BitVec.toNat)) ∧
        exec (.intbig x) s = .next { s with
          res := .none, cnt := 0, serr := 0, obuf := bs, olen := bs.length, oidx := 0, phase := .emit })

/-- R53, R55 to R61, acceptance: each pseudo-command starts the header of its own major type and its 64-bit value. -/
def Obligations.KindsStartTheirHeaders : Prop :=
  ∀ (s : State) (v : Nat) (i : Instr) (mt : Nat), s.rst = false → s.phase = .idle →
    (i, mt) ∈ [(Instr.uint v, 0), (.bstr v, 2), (.tstr v, 3), (.array v, 4), (.map v, 5), (.tag v, 6),
      (.simple v, 7)] →
    ∃ bs, tableBytes mt (v % 2 ^ 64) = some (bs.map BitVec.toNat) ∧
      exec i s = .next { s with
        res := .none, cnt := 0, serr := 0, obuf := bs, olen := bs.length, oidx := 0, phase := .emit }

/-- D9, R53: a pseudo-command is its expansion, in every state. -/
def Obligations.KindIsItsExpansion : Prop :=
  ∀ (i : Instr) (s : State), exec i s = exec i.expand s

/-- R47: the three domains agree on the magnitudes they share, in every state; beyond them `HDRBIG` ends with `RANGE`. -/
def Obligations.DomainsAgree : Prop :=
  ∀ (s : State) (mt : BitVec 3) (u : Nat),
    (u < 2 ^ 32 → exec (.hdr32 mt u) s = exec (.hdr64 mt u) s ∧ exec (.hdr64 mt u) s = exec (.hdrbig mt u) s) ∧
    (u < 2 ^ 64 → exec (.hdr64 mt u) s = exec (.hdrbig mt u) s) ∧
    (2 ^ 64 ≤ u → u < 2 ^ s.cfg.bigw → exec (.hdrbig mt u) s = .next (s.accept .range))

/-- The frame of every command (R13, R17, R20): acceptance touches neither the sink stream nor the inputs nor the
parameters; an acceptance that starts no emission leaves `OBUF`, `OLEN`, `OIDX`; and a block that is emitting or held
in reset is not touched at all (R72, R80; log 15). -/
def Obligations.CommandFrame : Prop :=
  ∀ (i : Instr) (s t : State), exec i s = .next t →
    t.cfg = s.cfg ∧ t.rst = s.rst ∧ t.issues = s.issues ∧ t.stream = s.stream ∧ t.turns = s.turns ∧
    t.resets = s.resets ∧
    (t.phase = .idle → t.obuf = s.obuf ∧ t.olen = s.olen ∧ t.oidx = s.oidx) ∧
    (s.rst = true ∨ s.phase = .emit → t = s)

/-- R71 "No other command can raise it": a ready block answers a command with `RANGE` only if the command is `HDRBIG`
or `INTBIG`, and then no byte is offered and `CNT` and `SERR` are 0. -/
def Obligations.OnlyBigCommandsEndInRange : Prop :=
  ∀ (i : Instr) (s t : State), s.rst = false → s.phase = .idle → exec i s = .next t → t.res = .range →
    ((∃ mt x, i = .hdrbig mt x) ∨ ∃ x, i = .intbig x) ∧
    t.phase = .idle ∧ t.cnt = 0 ∧ t.serr = 0 ∧ t.stream = s.stream ∧ t.offered = none

/-! ## Acceptance by the machine -/

/-- A step runs the decoded instruction: when the encoder moves (it is its turn, or nothing is scheduled), the block is
ready and the oldest waiting issue decodes to `i`, the step is `exec i` on the state with that issue and that turn taken
off. -/
def Obligations.StepRunsTheDecodedCommand : Prop :=
  ∀ (s : State) (q : Issue) (rest : List Issue) (i : Instr),
    s.rst = false → s.phase = .idle → s.issues = q :: rest → decode q.cmd q.opnd = .ok i →
    (s.turns = [] ∨ s.turns.head? = some .encoder) →
    step s = exec i { s with issues := rest, turns := s.turns.tail }

/-- R43: what acceptance computes is `Emission` of the command byte, the operand and `NEG_MODE`, for every command; its
outcome is `illegal` exactly for a reserved byte, whatever the operand (R75), and a list result has 1 to 9 bytes. -/
def Obligations.EveryCommandComputesEmission : Prop :=
  (∀ (s : State) (c : Byte) (x : Nat) (i : Instr), decode c x = .ok i →
    exec i s = .next (s.accept (emission s.cfg c x))) ∧
  (∀ (cfg : Config) (c : Byte) (x : Nat), emission cfg c x = .illegal ↔
    c.toNat % 4 = 0 ∨ c.toNat / 8 % 4 ≠ 0 ∨ (c.toNat / 4 % 2 = 1 ∧ c.toNat / 32 ≠ 0)) ∧
  (∀ (cfg : Config) (c : Byte) (x : Nat) (bs : List Byte), emission cfg c x = .bytes bs →
    1 ≤ bs.length ∧ bs.length ≤ 9)

/-- R13: acceptance as its pseudocode has it, for every command byte and operand; a busy block takes nothing and the
command keeps waiting; presenting a command only makes it wait, behind those that wait already (the model's, log 5). -/
def Obligations.IssueAndCapture : Prop :=
  (∀ (s : State) (q : Issue) (rest : List Issue), s.rst = false → s.phase = .idle → s.issues = q :: rest →
    (s.turns = [] ∨ s.turns.head? = some .encoder) →
    (emission s.cfg q.cmd q.opnd = .illegal →
      step s = .next { s with
        issues := rest, turns := s.turns.tail, res := .illegal, cnt := 0, serr := 0, phase := .idle }) ∧
    (emission s.cfg q.cmd q.opnd = .range →
      step s = .next { s with
        issues := rest, turns := s.turns.tail, res := .range, cnt := 0, serr := 0, phase := .idle }) ∧
    (∀ bs, emission s.cfg q.cmd q.opnd = .bytes bs →
      step s = .next { s with
        issues := rest, turns := s.turns.tail, res := .none, cnt := 0, serr := 0, obuf := bs,
        olen := bs.length, oidx := 0, phase := .emit })) ∧
  (∀ s : State, s.phase = .emit → (s.turns = [] ∨ s.turns.head? = some .encoder) →
    step s = .next { s with turns := s.turns.tail }) ∧
  (∀ (s : State) (q : Issue) (ts : List Turn), s.turns = .present q :: ts →
    step s = .next { s with turns := ts, issues := s.issues ++ [q] })

/-- R35, R74: a reserved byte (its three conditions in plain numbers) is accepted, offers nothing, ends at once with
`ILLEGAL`, `CNT = 0`, `SERR = 0`, whatever its operand; nothing else changes. -/
def Obligations.ReservedByteEndsIllegal : Prop :=
  ∀ (s : State) (q : Issue) (rest : List Issue), s.rst = false → s.phase = .idle → s.issues = q :: rest →
    (s.turns = [] ∨ s.turns.head? = some .encoder) →
    (q.cmd.toNat % 4 = 0 ∨ q.cmd.toNat / 8 % 4 ≠ 0 ∨ (q.cmd.toNat / 4 % 2 = 1 ∧ q.cmd.toNat / 32 ≠ 0)) →
    step s = .next { s with
      issues := rest, turns := s.turns.tail, res := .illegal, cnt := 0, serr := 0, phase := .idle }

/-- R72: a command presented while `BUSY = 1` is not taken and no result code is written for it. That it
waits behind those that wait already is the model's (log 5). -/
def Obligations.BusyCommandWaits : Prop :=
  ∀ (s : State) (q : Issue) (ts : List Turn), s.phase = .emit → s.turns = .present q :: .encoder :: ts →
    steps 2 s = .next { s with turns := ts, issues := s.issues ++ [q] }

/-- R17: what a command emits and what its acceptance leaves in `STATUS` do not depend on what went before: two
ready machines of the same `BIGW` and `NEG_MODE` that accept the same transaction agree. -/
def Obligations.AcceptanceForgetsTheLastCommand : Prop :=
  ∀ (s₁ s₂ t₁ t₂ : State) (q : Issue) (r₁ r₂ : List Issue),
    s₁.cfg.bigw = s₂.cfg.bigw → s₁.cfg.negMode = s₂.cfg.negMode →
    s₁.rst = false → s₁.phase = .idle → s₁.issues = q :: r₁ → s₁.turns = [] →
    s₂.rst = false → s₂.phase = .idle → s₂.issues = q :: r₂ → s₂.turns = [] →
    step s₁ = .next t₁ → step s₂ = .next t₂ →
    t₁.status = t₂.status ∧ t₁.phase = t₂.phase ∧
      (t₁.phase = .emit → t₁.obuf = t₂.obuf ∧ t₁.olen = t₂.olen ∧ t₁.oidx = t₂.oidx)

/-! ## The sink -/

/-- R22: the emission step, case by case; the recorded code is the sink's own for every code of `SERRW` bits. An idle
block offers nothing, so what a failure leaves of `OBUF` is dropped. -/
def Obligations.EmissionStep : Prop :=
  (∀ s : State, s.phase = .idle → s.offered = none) ∧
  ∀ (s : State) (b : Byte) (ts : List Turn), s.rst = false → s.phase = .emit → s.obuf[s.oidx]? = some b →
    (s.turns = .answer .ok :: ts → s.oidx + 1 ≠ s.olen →
      step s = .next { s with
        turns := ts, stream := s.stream ++ [b], oidx := s.oidx + 1, cnt := BitVec.ofNat 4 (s.oidx + 1) }) ∧
    (s.turns = .answer .ok :: ts → s.oidx + 1 = s.olen →
      step s = .next { s with
        turns := ts, stream := s.stream ++ [b], oidx := s.oidx + 1, cnt := BitVec.ofNat 4 (s.oidx + 1),
        res := .ok, phase := .idle }) ∧
    (∀ e : BitVec 16, e.toNat < 2 ^ s.cfg.serrw → s.turns = .answer (.err e) :: ts →
      step s = .next { s with turns := ts, serr := e, res := .sink, phase := .idle })

/-- R15 `OK`, R28, R88: an accepted command whose bytes the sink all takes ends with `OK` after one step a byte; the
stream has gained exactly its emission, `CNT` is its length, and nothing else changed. -/
def Obligations.CommandRunsToOk : Prop :=
  ∀ (s : State) (q : Issue) (rest : List Issue) (bs : List Byte) (later : List Turn),
    s.rst = false → s.phase = .idle → s.issues = q :: rest → emission s.cfg q.cmd q.opnd = .bytes bs →
    s.turns = .encoder :: (List.replicate bs.length (.answer .ok) ++ later) →
    steps (1 + bs.length) s = .next { s with
      issues := rest, turns := later, stream := s.stream ++ bs, obuf := bs, olen := bs.length,
      oidx := bs.length, cnt := BitVec.ofNat 4 bs.length, serr := 0, res := .ok, phase := .idle }

/-- R73: a command whose byte `k` the sink fails with code `e` ends with `SINK`, `CNT = k`, `SERR = e`; the first `k`
bytes are in the stream and no other byte is ever offered. -/
def Obligations.CommandRunsToSinkFailure : Prop :=
  ∀ (s : State) (q : Issue) (rest : List Issue) (bs : List Byte) (k : Nat) (e : BitVec 16) (later : List Turn),
    s.rst = false → s.phase = .idle → s.issues = q :: rest → emission s.cfg q.cmd q.opnd = .bytes bs →
    k < bs.length → e.toNat < 2 ^ s.cfg.serrw →
    s.turns = .encoder :: (List.replicate k (.answer .ok) ++ .answer (.err e) :: later) →
    steps (1 + k + 1) s = .next { s with
      issues := rest, turns := later, stream := s.stream ++ bs.take k, obuf := bs, olen := bs.length,
      oidx := k, cnt := BitVec.ofNat 4 k, serr := e, res := .sink, phase := .idle }

/-- R27: for any sequence of commands, each served by the sink up to its first failed byte or to its end, with the
host's payload after each, the stream gains for each command in acceptance order its emission up to the first failed byte
and then the payload; and the run ends (R83). That waiting issues are taken in list order is the model's (log 5), as is that
each payload lands whole at its turn (log 16). -/
def Obligations.StreamIsTheServedEmissionsInOrder : Prop :=
  ∀ (s : State) (jobs : List Job), s.rst = false → s.phase = .idle →
    s.issues = jobs.map Job.issue → s.turns = jobs.flatMap (Job.turns s.cfg) →
    ∃ t, steps s.turns.length s = .next t ∧
      t.stream = s.stream ++ jobs.flatMap (fun j => j.taken s.cfg ++ j.payload) ∧ Ended t

/-- R26 "The block never reads the sink": whatever the stream holds already, the step does the same. -/
def Obligations.BlockNeverReadsTheStream : Prop :=
  ∀ (s t : State) (before : List Byte), step s = .next t →
    step { s with stream := before ++ s.stream } = .next { t with stream := before ++ t.stream }

/-- R20, R26, R84: the stream only grows at its end; the block adds at most one byte a step, the one it is offering;
every other byte is the host's, and while the host keeps off an emission there is none. That a byte in flight at a reset
lands in the step that asserts `RST`, or never, is the model's (log 24). -/
def Obligations.StreamOnlyGrowsAtItsEnd : Prop :=
  ∀ s t : State, step s = .next t →
    ∃ bs, t.stream = s.stream ++ bs ∧
      (bs = [] ∨ (s.offered = bs.head? ∧ bs.length = 1) ∨ s.turns.head? = some (.hostWrite bs)) ∧
      (HostKeepsOff s → s.phase = .emit → bs = [] ∨ bs = s.offered.toList)

/-- R23: a sink that does not answer leaves the block where it is: emitting, with `BUSY = 1`. -/
def Obligations.UnansweredWriteHoldsTheBlock : Prop :=
  ∀ (s : State) (k : Nat), s.phase = .emit → s.turns = [] → steps k s = .next s

/-- R84, D27: a host write during an emission is a race on the stream alone: it changes no other part of the machine. -/
def Obligations.HostWriteTouchesOnlyTheStream : Prop :=
  ∀ (s : State) (bs : List Byte) (ts : List Turn), s.turns = .hostWrite bs :: ts →
    step s = .next { s with turns := ts, stream := s.stream ++ bs }

/-! ## Status and reset -/

/-- R14: the `STATUS` word as a number, so that bits 15..8 are 0, with the codes of R15; its legal values in every state
of a run, and `CNT` the bytes taken so far while the block emits (R16, R85); no host transaction changes it. -/
def Obligations.StatusWord : Prop :=
  (∀ s : State, s.status.toNat = 65536 * s.serr.toNat + 16 * s.cnt.toNat + 2 * s.res.code.toNat +
    (if s.phase = .emit then 1 else 0)) ∧
  (Res.code .none = 0 ∧ Res.code .ok = 1 ∧ Res.code .range = 2 ∧ Res.code .sink = 3 ∧ Res.code .illegal = 4) ∧
  (∀ s : State, Inv s → s.cnt.toNat ≤ 9 ∧ s.res.code.toNat ≤ 4 ∧ s.serr.toNat < 2 ^ s.cfg.serrw ∧
    (s.phase = .emit → s.res = .none ∧ s.cnt.toNat = s.oidx) ∧ (s.res ≠ .sink → s.serr = 0)) ∧
  (∀ (s : State) (q : Issue) (bs : List Byte),
    (s.present q).status = s.status ∧ (s.hostWrite bs).status = s.status)

/-- R19: the values the spec states for the state after reset. -/
def Obligations.ResetValues : Prop :=
  State.reset.phase = .idle ∧ State.reset.busy = 0 ∧ State.reset.res = .none ∧ State.reset.cnt = 0 ∧
  State.reset.serr = 0 ∧ State.reset.status.extractLsb' 8 8 = 0 ∧ State.reset.status = 0x00000000#32

/-- R81, R80, R19: `RST` asserted at any time stops the block at once, with no result code left, no byte offered and
late answers ignored; the byte in flight reaches the stream or not, as the turn's flag says (log 9), and if it does, at the
assertion (the model's, log 24). That `PHASE` and `RES`
have their reset values while `RST` is still asserted, also for a block that was idle, is the model's reading (log 8). -/
def Obligations.ResetStopsTheBlock : Prop :=
  ∀ (s : State) (taken : Bool) (ts : List Turn), s.turns = .assertRst taken :: ts →
    ∃ t, step s = .next t ∧ t.phase = .idle ∧ t.res = .none ∧ t.offered = none ∧ t.rst = true ∧
      (∀ r, sinkAnswers r t = .next t) ∧
      (taken = false → t.stream = s.stream) ∧
      (∀ b, taken = true → s.rst = false → s.phase = .emit → s.obuf[s.oidx]? = some b →
        t.stream = s.stream ++ [b]) ∧
      (s.phase = .idle → t.stream = s.stream)

/-- R80: while `RST` is asserted the block accepts no command and takes no answer; when it is released, in a state of a
run, the block is idle with `STATUS = 0`, and the next step accepts a waiting command. -/
def Obligations.ResetHoldsTheBlock : Prop :=
  (∀ s : State, s.rst = true → s.offered = none ∧
    (s.turns = [] ∨ s.turns.head? = some .encoder ∨ (∃ r, s.turns.head? = some (.answer r)) →
      step s = .next { s with turns := s.turns.tail })) ∧
  (∀ (s : State) (ts : List Turn), Inv s → s.rst = true → s.turns = .releaseRst :: ts →
    ∃ t, step s = .next t ∧ t.rst = false ∧ t.phase = .idle ∧ t.status = 0 ∧ t.issues = s.issues)

/-- R18, R78: `STATUS` changes only in three ways: the encoder accepts a command, an emission is in progress, or `RST`
is asserted. So a result stays until the next acceptance or reset. -/
def Obligations.ResultStaysUntilTheNextAcceptance : Prop :=
  ∀ s t : State, step s = .next t → t.status ≠ s.status →
    (s.phase = .idle ∧ s.rst = false ∧ ∃ q, s.issues = q :: t.issues) ∨
    s.phase = .emit ∨ ∃ b, s.turns.head? = some (.assertRst b)

/-- R82: the parameters are build-time constants: no step changes them. -/
def Obligations.ParametersNeverChange : Prop :=
  ∀ s t : State, step s = .next t → t.cfg = s.cfg

/-! ## The invariant -/

/-- The invariant holds after reset. -/
def Obligations.InvariantHoldsAtReset : Prop := Inv State.reset

/-- Every step keeps the invariant (R14, R15, R16, R80): the emission registers agree with `STATUS`, the result codes
with their counts, and a block in reset holds its reset values. -/
def Obligations.InvariantKeptByEveryStep : Prop :=
  ∀ s t : State, Inv s → step s = .next t → Inv t

/-- R89: under the invariant no step stops the machine: there is always a next state. -/
def Obligations.InvariantStatesAlwaysStep : Prop :=
  ∀ s : State, Inv s → ∃ t, step s = .next t

/-! ## Host lines -/

/-- R38, R72: at a `wait` line the host goes on exactly when no issue of its waits and `BUSY = 0`, with the machine as
it was. The host waiting with its issue is the model's reading (log 19). -/
def Obligations.WaitLinePassesWhenIdle : Prop :=
  ∀ s : State, (hostLine .wait s = .done s ↔ s.issues = [] ∧ s.phase = .idle) ∧
    (hostLine .wait s = .blocked ↔ ¬ (s.issues = [] ∧ s.phase = .idle))

/-- R87: what each header announces: payload bytes after a string header, values after an array, a map (two a pair) and a
tag, nothing after an integer or a simple value. The stream keeps its duties exactly if nothing is due at its end; a
payload pays payload bytes that are due and no more; a header is itself a value that is due, and stands where no payload
byte is due. The duties are the host's; the block checks none of them (R76; log 20). -/
def Obligations.HeadersAnnounceTheirDuties : Prop :=
  (∀ v : Nat,
    dutyOf 0 v = .nothing ∧ dutyOf 1 v = .nothing ∧ dutyOf 2 v = .payload v ∧ dutyOf 3 v = .payload v ∧
    dutyOf 4 v = .values v ∧ dutyOf 5 v = .values (2 * v) ∧ dutyOf 6 v = .values 1 ∧ dutyOf 7 v = .nothing) ∧
  (∀ need owed : Nat, dutiesKept [] need owed = true ↔ need = 0 ∧ owed = 0) ∧
  (∀ (n need owed : Nat) (rest : List Entry),
    dutiesKept (.payload n :: rest) need owed = true ↔ n ≤ owed ∧ dutiesKept rest need (owed - n) = true) ∧
  (∀ (mt : BitVec 3) (v need owed : Nat) (rest : List Entry), owed ≠ 0 ∨ need = 0 →
    dutiesKept (.header mt v :: rest) need owed = false) ∧
  (∀ (v need : Nat) (rest : List Entry),
    dutiesKept (.header 0 v :: rest) (need + 1) 0 = dutiesKept rest need 0 ∧
    dutiesKept (.header 1 v :: rest) (need + 1) 0 = dutiesKept rest need 0 ∧
    dutiesKept (.header 2 v :: rest) (need + 1) 0 = dutiesKept rest need v ∧
    dutiesKept (.header 3 v :: rest) (need + 1) 0 = dutiesKept rest need v ∧
    dutiesKept (.header 4 v :: rest) (need + 1) 0 = dutiesKept rest (need + v) 0 ∧
    dutiesKept (.header 5 v :: rest) (need + 1) 0 = dutiesKept rest (need + 2 * v) 0 ∧
    dutiesKept (.header 6 v :: rest) (need + 1) 0 = dutiesKept rest (need + 1) 0 ∧
    dutiesKept (.header 7 v :: rest) (need + 1) 0 = dutiesKept rest need 0)
end

