-- ==== Sys2Proof/Laws/Pure.lean ====
section
/-! SUPPORT. The pure functions: one lemma a function that says what it answers. -/

namespace Sys2Proof.Machine

/-! ## Operand views -/

theorem uview_eq (cfg : Config) (dom : Dom) (x : Nat) : uview cfg dom x = x % 2 ^ dom.width cfg := by
  simp [uview, opndField]

@[simp] theorem uview_w32 (cfg : Config) (x : Nat) : uview cfg .w32 x = x % 2 ^ 32 := uview_eq cfg .w32 x

@[simp] theorem uview_w64 (cfg : Config) (x : Nat) : uview cfg .w64 x = x % 2 ^ 64 := uview_eq cfg .w64 x

@[simp] theorem uview_wbig (cfg : Config) (x : Nat) : uview cfg .wbig x = x % 2 ^ cfg.bigw := uview_eq cfg .wbig x

@[simp] theorem sview_w32 (cfg : Config) (x : Nat) : sview cfg .w32 x = (BitVec.ofNat 32 x).toInt := rfl

@[simp] theorem sview_w64 (cfg : Config) (x : Nat) : sview cfg .w64 x = (BitVec.ofNat 64 x).toInt := rfl

@[simp] theorem sview_wbig (cfg : Config) (x : Nat) : sview cfg .wbig x = (BitVec.ofNat cfg.bigw x).toInt := rfl

/-! ## Classifier, serializer, header -/

/-- The classifier by bands: the only five ways it answers (R40). -/
theorem classify_cases {v : Nat} {info : BitVec 5} {n : Nat} (h : classify v = some (info, n)) :
    (v < 24 ∧ info = BitVec.ofNat 5 v ∧ n = 0) ∨ (24 ≤ v ∧ v < 256 ∧ info = 24#5 ∧ n = 1) ∨
    (256 ≤ v ∧ v < 65536 ∧ info = 25#5 ∧ n = 2) ∨ (65536 ≤ v ∧ v < 2 ^ 32 ∧ info = 26#5 ∧ n = 4) ∨
    (2 ^ 32 ≤ v ∧ v < 2 ^ 64 ∧ info = 27#5 ∧ n = 8) := by
  unfold classify at h
  split at h
  · simp at h; exact .inl ⟨‹_›, h.1.symm, h.2.symm⟩
  · split at h
    · simp at h; exact .inr (.inl ⟨by omega, ‹_›, h.1.symm, h.2.symm⟩)
    · split at h
      · simp at h; exact .inr (.inr (.inl ⟨by omega, ‹_›, h.1.symm, h.2.symm⟩))
      · split at h
        · simp at h; exact .inr (.inr (.inr (.inl ⟨by omega, ‹_›, h.1.symm, h.2.symm⟩)))
        · split at h
          · simp at h; exact .inr (.inr (.inr (.inr ⟨by omega, ‹_›, h.1.symm, h.2.symm⟩)))
          · cases h

/-- A magnitude is unencodable exactly from 2^64 on (R40). -/
theorem classify_eq_none_iff (v : Nat) : classify v = none ↔ 2 ^ 64 ≤ v := by
  unfold classify
  repeat' split
  all_goals simp
  all_goals omega

@[simp] theorem bytesBe_length (v n : Nat) : (bytesBe v n).length = n := by simp [bytesBe]

/-- A header is its octet and its additional bytes (R42). -/
theorem header_cases {mt : BitVec 3} {v : Nat} {bs : List Byte} (h : header mt v = some bs) :
    ∃ info n, classify v = some (info, n) ∧ bs = pack mt info :: bytesBe v n := by
  unfold header at h
  split at h
  · cases h
  · exact ⟨_, _, ‹_›, by simpa using h.symm⟩

theorem header_eq_none_iff (mt : BitVec 3) (v : Nat) : header mt v = none ↔ 2 ^ 64 ≤ v := by
  rw [← classify_eq_none_iff]
  unfold header
  split <;> simp [*]

/-- The output of one command has 1 to 9 bytes (R5, R42). -/
theorem header_length {mt : BitVec 3} {v : Nat} {bs : List Byte} (h : header mt v = some bs) :
    1 ≤ bs.length ∧ bs.length ≤ 9 := by
  obtain ⟨info, n, hc, rfl⟩ := header_cases h
  have := classify_cases hc
  simp
  omega

/-! ## Outcomes -/

theorem headerEmission_ne_illegal (mt : BitVec 3) (u : Nat) : headerEmission mt u ≠ .illegal := by
  unfold headerEmission; split <;> simp

theorem headerEmission_eq_range_iff (mt : BitVec 3) (u : Nat) : headerEmission mt u = .range ↔ 2 ^ 64 ≤ u := by
  rw [← header_eq_none_iff mt u]
  unfold headerEmission
  split <;> simp [*]

theorem headerEmission_eq_bytes_iff (mt : BitVec 3) (u : Nat) (bs : List Byte) :
    headerEmission mt u = .bytes bs ↔ header mt u = some bs := by
  unfold headerEmission
  split <;> simp [*]

theorem headerEmission_of_lt (mt : BitVec 3) {u : Nat} (h : u < 2 ^ 64) :
    ∃ bs, header mt u = some bs ∧ headerEmission mt u = .bytes bs := by
  cases hb : header mt u with
  | none => have := (header_eq_none_iff mt u).1 hb; omega
  | some bs => exact ⟨bs, rfl, (headerEmission_eq_bytes_iff mt u bs).2 hb⟩

@[simp] theorem bytesOf_illegal : Safety.bytesOf .illegal = [] := rfl

@[simp] theorem bytesOf_range : Safety.bytesOf .range = [] := rfl

@[simp] theorem bytesOf_bytes (bs : List Byte) : Safety.bytesOf (.bytes bs) = bs := rfl

/-! ## Sign split -/

theorem signedSplit_of_nonneg {n : Int} (mode : NegMode) (h : 0 ≤ n) : signedSplit n mode = (0#3, n.toNat) := by
  simp [signedSplit, h]

theorem signedSplit_abs {n : Int} (h : n < 0) : signedSplit n .abs = (1#3, (-n).toNat) := by
  simp [signedSplit, Int.not_le.2 h]

theorem signedSplit_minus1 {n : Int} (h : n < 0) : signedSplit n .minus1 = (1#3, (-1 - n).toNat) := by
  simp [signedSplit, Int.not_le.2 h]

/-- The magnitude never exceeds the absolute value (R48). -/
theorem signedSplit_magnitude_le (n : Int) (mode : NegMode) : (signedSplit n mode).2 ≤ n.natAbs := by
  unfold signedSplit
  split
  · dsimp only; omega
  · cases mode <;> dsimp only <;> omega

/-! ## Recorded error code -/

/-- The recorded code has `SERRW` bits (R14). -/
theorem serrOf_lt (cfg : Config) (e : BitVec 16) : (serrOf cfg e).toNat < 2 ^ cfg.serrw := by
  simp only [serrOf, BitVec.toNat_setWidth]
  exact Nat.lt_of_le_of_lt (Nat.mod_le _ _) (Nat.mod_lt _ (by positivity))

/-- A code of `SERRW` bits is recorded unchanged (R73). -/
theorem serrOf_eq (cfg : Config) {e : BitVec 16} (h : e.toNat < 2 ^ cfg.serrw) : serrOf cfg e = e := by
  apply BitVec.eq_of_toNat_eq
  simp only [serrOf, BitVec.toNat_setWidth]
  rw [Nat.mod_eq_of_lt h, Nat.mod_eq_of_lt e.isLt]

end Sys2Proof.Machine
end

