-- ==== Sys2Proof/Laws/State.lean ====
section
/-! SUPPORT. What each update of the state leaves in each field: one lemma per field per update, true by rfl. -/

namespace Sys2Proof.Machine

@[simp] theorem State.clearResult_cfg (s : State) : s.clearResult.cfg = s.cfg := rfl
@[simp] theorem State.clearResult_phase (s : State) : s.clearResult.phase = s.phase := rfl
@[simp] theorem State.clearResult_res (s : State) : s.clearResult.res = .none := rfl
@[simp] theorem State.clearResult_cnt (s : State) : s.clearResult.cnt = 0 := rfl
@[simp] theorem State.clearResult_serr (s : State) : s.clearResult.serr = 0 := rfl
@[simp] theorem State.clearResult_obuf (s : State) : s.clearResult.obuf = s.obuf := rfl
@[simp] theorem State.clearResult_olen (s : State) : s.clearResult.olen = s.olen := rfl
@[simp] theorem State.clearResult_oidx (s : State) : s.clearResult.oidx = s.oidx := rfl
@[simp] theorem State.clearResult_rst (s : State) : s.clearResult.rst = s.rst := rfl
@[simp] theorem State.clearResult_issues (s : State) : s.clearResult.issues = s.issues := rfl
@[simp] theorem State.clearResult_stream (s : State) : s.clearResult.stream = s.stream := rfl
@[simp] theorem State.clearResult_turns (s : State) : s.clearResult.turns = s.turns := rfl
@[simp] theorem State.clearResult_resets (s : State) : s.clearResult.resets = s.resets := rfl

@[simp] theorem State.finish_cfg (r : Res) (e : BitVec 16) (s : State) : (s.finish r e).cfg = s.cfg := rfl
@[simp] theorem State.finish_phase (r : Res) (e : BitVec 16) (s : State) : (s.finish r e).phase = .idle := rfl
@[simp] theorem State.finish_res (r : Res) (e : BitVec 16) (s : State) : (s.finish r e).res = r := rfl
@[simp] theorem State.finish_cnt (r : Res) (e : BitVec 16) (s : State) : (s.finish r e).cnt = s.cnt := rfl
@[simp] theorem State.finish_serr (r : Res) (e : BitVec 16) (s : State) : (s.finish r e).serr = e := rfl
@[simp] theorem State.finish_obuf (r : Res) (e : BitVec 16) (s : State) : (s.finish r e).obuf = s.obuf := rfl
@[simp] theorem State.finish_olen (r : Res) (e : BitVec 16) (s : State) : (s.finish r e).olen = s.olen := rfl
@[simp] theorem State.finish_oidx (r : Res) (e : BitVec 16) (s : State) : (s.finish r e).oidx = s.oidx := rfl
@[simp] theorem State.finish_rst (r : Res) (e : BitVec 16) (s : State) : (s.finish r e).rst = s.rst := rfl
@[simp] theorem State.finish_issues (r : Res) (e : BitVec 16) (s : State) : (s.finish r e).issues = s.issues := rfl
@[simp] theorem State.finish_stream (r : Res) (e : BitVec 16) (s : State) : (s.finish r e).stream = s.stream := rfl
@[simp] theorem State.finish_turns (r : Res) (e : BitVec 16) (s : State) : (s.finish r e).turns = s.turns := rfl
@[simp] theorem State.finish_resets (r : Res) (e : BitVec 16) (s : State) : (s.finish r e).resets = s.resets := rfl

@[simp] theorem State.startEmission_cfg (bs : List Byte) (s : State) : (s.startEmission bs).cfg = s.cfg := rfl
@[simp] theorem State.startEmission_phase (bs : List Byte) (s : State) : (s.startEmission bs).phase = .emit := rfl
@[simp] theorem State.startEmission_res (bs : List Byte) (s : State) : (s.startEmission bs).res = s.res := rfl
@[simp] theorem State.startEmission_cnt (bs : List Byte) (s : State) : (s.startEmission bs).cnt = s.cnt := rfl
@[simp] theorem State.startEmission_serr (bs : List Byte) (s : State) : (s.startEmission bs).serr = s.serr := rfl
@[simp] theorem State.startEmission_obuf (bs : List Byte) (s : State) : (s.startEmission bs).obuf = bs := rfl
@[simp] theorem State.startEmission_olen (bs : List Byte) (s : State) : (s.startEmission bs).olen = bs.length := rfl
@[simp] theorem State.startEmission_oidx (bs : List Byte) (s : State) : (s.startEmission bs).oidx = 0 := rfl
@[simp] theorem State.startEmission_rst (bs : List Byte) (s : State) : (s.startEmission bs).rst = s.rst := rfl
@[simp] theorem State.startEmission_issues (bs : List Byte) (s : State) : (s.startEmission bs).issues = s.issues := rfl
@[simp] theorem State.startEmission_stream (bs : List Byte) (s : State) : (s.startEmission bs).stream = s.stream := rfl
@[simp] theorem State.startEmission_turns (bs : List Byte) (s : State) : (s.startEmission bs).turns = s.turns := rfl
@[simp] theorem State.startEmission_resets (bs : List Byte) (s : State) : (s.startEmission bs).resets = s.resets := rfl

@[simp] theorem State.byteFailed_cfg (e : BitVec 16) (s : State) : (s.byteFailed e).cfg = s.cfg := rfl
@[simp] theorem State.byteFailed_phase (e : BitVec 16) (s : State) : (s.byteFailed e).phase = .idle := rfl
@[simp] theorem State.byteFailed_res (e : BitVec 16) (s : State) : (s.byteFailed e).res = .sink := rfl
@[simp] theorem State.byteFailed_cnt (e : BitVec 16) (s : State) : (s.byteFailed e).cnt = s.cnt := rfl
@[simp] theorem State.byteFailed_serr (e : BitVec 16) (s : State) : (s.byteFailed e).serr = serrOf s.cfg e := rfl
@[simp] theorem State.byteFailed_obuf (e : BitVec 16) (s : State) : (s.byteFailed e).obuf = s.obuf := rfl
@[simp] theorem State.byteFailed_olen (e : BitVec 16) (s : State) : (s.byteFailed e).olen = s.olen := rfl
@[simp] theorem State.byteFailed_oidx (e : BitVec 16) (s : State) : (s.byteFailed e).oidx = s.oidx := rfl
@[simp] theorem State.byteFailed_rst (e : BitVec 16) (s : State) : (s.byteFailed e).rst = s.rst := rfl
@[simp] theorem State.byteFailed_issues (e : BitVec 16) (s : State) : (s.byteFailed e).issues = s.issues := rfl
@[simp] theorem State.byteFailed_stream (e : BitVec 16) (s : State) : (s.byteFailed e).stream = s.stream := rfl
@[simp] theorem State.byteFailed_turns (e : BitVec 16) (s : State) : (s.byteFailed e).turns = s.turns := rfl
@[simp] theorem State.byteFailed_resets (e : BitVec 16) (s : State) : (s.byteFailed e).resets = s.resets := rfl

@[simp] theorem State.present_cfg (q : Issue) (s : State) : (s.present q).cfg = s.cfg := rfl
@[simp] theorem State.present_phase (q : Issue) (s : State) : (s.present q).phase = s.phase := rfl
@[simp] theorem State.present_res (q : Issue) (s : State) : (s.present q).res = s.res := rfl
@[simp] theorem State.present_cnt (q : Issue) (s : State) : (s.present q).cnt = s.cnt := rfl
@[simp] theorem State.present_serr (q : Issue) (s : State) : (s.present q).serr = s.serr := rfl
@[simp] theorem State.present_obuf (q : Issue) (s : State) : (s.present q).obuf = s.obuf := rfl
@[simp] theorem State.present_olen (q : Issue) (s : State) : (s.present q).olen = s.olen := rfl
@[simp] theorem State.present_oidx (q : Issue) (s : State) : (s.present q).oidx = s.oidx := rfl
@[simp] theorem State.present_rst (q : Issue) (s : State) : (s.present q).rst = s.rst := rfl
@[simp] theorem State.present_issues (q : Issue) (s : State) : (s.present q).issues = s.issues ++ [q] := rfl
@[simp] theorem State.present_stream (q : Issue) (s : State) : (s.present q).stream = s.stream := rfl
@[simp] theorem State.present_turns (q : Issue) (s : State) : (s.present q).turns = s.turns := rfl
@[simp] theorem State.present_resets (q : Issue) (s : State) : (s.present q).resets = s.resets := rfl

@[simp] theorem State.hostWrite_cfg (bs : List Byte) (s : State) : (s.hostWrite bs).cfg = s.cfg := rfl
@[simp] theorem State.hostWrite_phase (bs : List Byte) (s : State) : (s.hostWrite bs).phase = s.phase := rfl
@[simp] theorem State.hostWrite_res (bs : List Byte) (s : State) : (s.hostWrite bs).res = s.res := rfl
@[simp] theorem State.hostWrite_cnt (bs : List Byte) (s : State) : (s.hostWrite bs).cnt = s.cnt := rfl
@[simp] theorem State.hostWrite_serr (bs : List Byte) (s : State) : (s.hostWrite bs).serr = s.serr := rfl
@[simp] theorem State.hostWrite_obuf (bs : List Byte) (s : State) : (s.hostWrite bs).obuf = s.obuf := rfl
@[simp] theorem State.hostWrite_olen (bs : List Byte) (s : State) : (s.hostWrite bs).olen = s.olen := rfl
@[simp] theorem State.hostWrite_oidx (bs : List Byte) (s : State) : (s.hostWrite bs).oidx = s.oidx := rfl
@[simp] theorem State.hostWrite_rst (bs : List Byte) (s : State) : (s.hostWrite bs).rst = s.rst := rfl
@[simp] theorem State.hostWrite_issues (bs : List Byte) (s : State) : (s.hostWrite bs).issues = s.issues := rfl
@[simp] theorem State.hostWrite_stream (bs : List Byte) (s : State) : (s.hostWrite bs).stream = s.stream ++ bs := rfl
@[simp] theorem State.hostWrite_turns (bs : List Byte) (s : State) : (s.hostWrite bs).turns = s.turns := rfl
@[simp] theorem State.hostWrite_resets (bs : List Byte) (s : State) : (s.hostWrite bs).resets = s.resets := rfl

@[simp] theorem State.assertRst_cfg (taken : Bool) (s : State) : (s.assertRst taken).cfg = s.cfg := rfl
@[simp] theorem State.assertRst_phase (taken : Bool) (s : State) : (s.assertRst taken).phase = .idle := rfl
@[simp] theorem State.assertRst_res (taken : Bool) (s : State) : (s.assertRst taken).res = .none := rfl
@[simp] theorem State.assertRst_cnt (taken : Bool) (s : State) : (s.assertRst taken).cnt = 0 := rfl
@[simp] theorem State.assertRst_serr (taken : Bool) (s : State) : (s.assertRst taken).serr = 0 := rfl
@[simp] theorem State.assertRst_obuf (taken : Bool) (s : State) : (s.assertRst taken).obuf = Config.obufAfterReset s.resets := rfl
@[simp] theorem State.assertRst_olen (taken : Bool) (s : State) : (s.assertRst taken).olen = Config.olenAfterReset s.resets := rfl
@[simp] theorem State.assertRst_oidx (taken : Bool) (s : State) : (s.assertRst taken).oidx = Config.oidxAfterReset s.resets := rfl
@[simp] theorem State.assertRst_rst (taken : Bool) (s : State) : (s.assertRst taken).rst = true := rfl
@[simp] theorem State.assertRst_issues (taken : Bool) (s : State) : (s.assertRst taken).issues = s.issues := rfl
@[simp] theorem State.assertRst_stream (taken : Bool) (s : State) : (s.assertRst taken).stream = if taken then s.stream ++ s.offered.toList else s.stream := rfl
@[simp] theorem State.assertRst_turns (taken : Bool) (s : State) : (s.assertRst taken).turns = s.turns := rfl
@[simp] theorem State.assertRst_resets (taken : Bool) (s : State) : (s.assertRst taken).resets = s.resets + 1 := rfl

@[simp] theorem State.releaseRst_cfg (s : State) : s.releaseRst.cfg = s.cfg := rfl
@[simp] theorem State.releaseRst_phase (s : State) : s.releaseRst.phase = s.phase := rfl
@[simp] theorem State.releaseRst_res (s : State) : s.releaseRst.res = s.res := rfl
@[simp] theorem State.releaseRst_cnt (s : State) : s.releaseRst.cnt = s.cnt := rfl
@[simp] theorem State.releaseRst_serr (s : State) : s.releaseRst.serr = s.serr := rfl
@[simp] theorem State.releaseRst_obuf (s : State) : s.releaseRst.obuf = s.obuf := rfl
@[simp] theorem State.releaseRst_olen (s : State) : s.releaseRst.olen = s.olen := rfl
@[simp] theorem State.releaseRst_oidx (s : State) : s.releaseRst.oidx = s.oidx := rfl
@[simp] theorem State.releaseRst_rst (s : State) : s.releaseRst.rst = false := rfl
@[simp] theorem State.releaseRst_issues (s : State) : s.releaseRst.issues = s.issues := rfl
@[simp] theorem State.releaseRst_stream (s : State) : s.releaseRst.stream = s.stream := rfl
@[simp] theorem State.releaseRst_turns (s : State) : s.releaseRst.turns = s.turns := rfl
@[simp] theorem State.releaseRst_resets (s : State) : s.releaseRst.resets = s.resets := rfl

@[simp] theorem State.withIssue_cfg (q : Issue) (s : State) : (s.withIssue q).cfg = s.cfg := rfl
@[simp] theorem State.withIssue_phase (q : Issue) (s : State) : (s.withIssue q).phase = .idle := rfl
@[simp] theorem State.withIssue_res (q : Issue) (s : State) : (s.withIssue q).res = s.res := rfl
@[simp] theorem State.withIssue_cnt (q : Issue) (s : State) : (s.withIssue q).cnt = s.cnt := rfl
@[simp] theorem State.withIssue_serr (q : Issue) (s : State) : (s.withIssue q).serr = s.serr := rfl
@[simp] theorem State.withIssue_obuf (q : Issue) (s : State) : (s.withIssue q).obuf = s.obuf := rfl
@[simp] theorem State.withIssue_olen (q : Issue) (s : State) : (s.withIssue q).olen = s.olen := rfl
@[simp] theorem State.withIssue_oidx (q : Issue) (s : State) : (s.withIssue q).oidx = s.oidx := rfl
@[simp] theorem State.withIssue_rst (q : Issue) (s : State) : (s.withIssue q).rst = false := rfl
@[simp] theorem State.withIssue_issues (q : Issue) (s : State) : (s.withIssue q).issues = q :: s.issues := rfl
@[simp] theorem State.withIssue_stream (q : Issue) (s : State) : (s.withIssue q).stream = s.stream := rfl
@[simp] theorem State.withIssue_turns (q : Issue) (s : State) : (s.withIssue q).turns = .encoder :: s.turns := rfl
@[simp] theorem State.withIssue_resets (q : Issue) (s : State) : (s.withIssue q).resets = s.resets := rfl

/-! `byteTaken` ends the command at the last byte only, so two fields depend on where `OIDX` is. -/

@[simp] theorem State.byteTaken_cfg (b : Byte) (s : State) : (s.byteTaken b).cfg = s.cfg := by
  unfold State.byteTaken; dsimp only; split <;> rfl

@[simp] theorem State.byteTaken_cnt (b : Byte) (s : State) : (s.byteTaken b).cnt = BitVec.ofNat 4 (s.oidx + 1) := by
  unfold State.byteTaken; dsimp only; split <;> rfl

@[simp] theorem State.byteTaken_obuf (b : Byte) (s : State) : (s.byteTaken b).obuf = s.obuf := by
  unfold State.byteTaken; dsimp only; split <;> rfl

@[simp] theorem State.byteTaken_olen (b : Byte) (s : State) : (s.byteTaken b).olen = s.olen := by
  unfold State.byteTaken; dsimp only; split <;> rfl

@[simp] theorem State.byteTaken_oidx (b : Byte) (s : State) : (s.byteTaken b).oidx = s.oidx + 1 := by
  unfold State.byteTaken; dsimp only; split <;> rfl

@[simp] theorem State.byteTaken_rst (b : Byte) (s : State) : (s.byteTaken b).rst = s.rst := by
  unfold State.byteTaken; dsimp only; split <;> rfl

@[simp] theorem State.byteTaken_issues (b : Byte) (s : State) : (s.byteTaken b).issues = s.issues := by
  unfold State.byteTaken; dsimp only; split <;> rfl

@[simp] theorem State.byteTaken_stream (b : Byte) (s : State) : (s.byteTaken b).stream = s.stream ++ [b] := by
  unfold State.byteTaken; dsimp only; split <;> rfl

@[simp] theorem State.byteTaken_turns (b : Byte) (s : State) : (s.byteTaken b).turns = s.turns := by
  unfold State.byteTaken; dsimp only; split <;> rfl

@[simp] theorem State.byteTaken_resets (b : Byte) (s : State) : (s.byteTaken b).resets = s.resets := by
  unfold State.byteTaken; dsimp only; split <;> rfl

@[simp] theorem State.byteTaken_serr (b : Byte) (s : State) : (s.byteTaken b).serr = s.serr := by
  unfold State.byteTaken; dsimp only; split <;> rfl

theorem State.byteTaken_phase (b : Byte) (s : State) :
    (s.byteTaken b).phase = if s.oidx + 1 = s.olen then .idle else s.phase := by
  unfold State.byteTaken; dsimp only; split <;> rfl

theorem State.byteTaken_res (b : Byte) (s : State) :
    (s.byteTaken b).res = if s.oidx + 1 = s.olen then .ok else s.res := by
  unfold State.byteTaken; dsimp only; split <;> rfl

/-! Acceptance writes the block's registers only. -/

@[simp] theorem State.accept_cfg (o : Emission) (s : State) : (s.accept o).cfg = s.cfg := by
  unfold State.accept; split
  · cases o <;> rfl
  · rfl

@[simp] theorem State.accept_rst (o : Emission) (s : State) : (s.accept o).rst = s.rst := by
  unfold State.accept; split
  · cases o <;> rfl
  · rfl

@[simp] theorem State.accept_issues (o : Emission) (s : State) : (s.accept o).issues = s.issues := by
  unfold State.accept; split
  · cases o <;> rfl
  · rfl

@[simp] theorem State.accept_stream (o : Emission) (s : State) : (s.accept o).stream = s.stream := by
  unfold State.accept; split
  · cases o <;> rfl
  · rfl

@[simp] theorem State.accept_turns (o : Emission) (s : State) : (s.accept o).turns = s.turns := by
  unfold State.accept; split
  · cases o <;> rfl
  · rfl

@[simp] theorem State.accept_resets (o : Emission) (s : State) : (s.accept o).resets = s.resets := by
  unfold State.accept; split
  · cases o <;> rfl
  · rfl

end Sys2Proof.Machine
end

