-- ==== Sys2Proof/Laws/Ops.lean ====
section
/-! SUPPORT. The shared operations on the state: everything acceptance, the sink's answer and a meaning can do. -/

namespace Sys2Proof.Machine

theorem State.ready_iff (s : State) : s.ready = true ↔ s.rst = false ∧ s.phase = .idle := by
  simp [State.ready]

theorem State.status_eq_zero_of_reset_values {s : State} (hp : s.phase = .idle) (hr : s.res = .none)
    (hc : s.cnt = 0) (he : s.serr = 0) : s.status = 0 := by
  simp only [State.status, State.busy, hp, hr, hc, he, Res.code]
  decide

/-- A block that is not ready takes nothing (R72, R80). -/
theorem State.accept_not_ready {s : State} (h : s.ready = false) (o : Emission) : s.accept o = s := by
  simp [State.accept, h]

theorem State.accept_bytes {s : State} (h : s.ready = true) (bs : List Byte) :
    s.accept (.bytes bs) = s.clearResult.startEmission bs := by
  simp [State.accept, h]

theorem State.accept_range {s : State} (h : s.ready = true) :
    s.accept .range = s.clearResult.finish .range 0 := by
  simp [State.accept, h]

theorem State.accept_illegal {s : State} (h : s.ready = true) :
    s.accept .illegal = s.clearResult.finish .illegal 0 := by
  simp [State.accept, h]

/-- What acceptance makes of each instruction: its emission (R44 to R46, R49 to R51, R53). -/
def outcomeOf (cfg : Config) : Instr → Emission
  | .hdr32 mt x => headerEmission mt (uview cfg .w32 x)
  | .hdr64 mt x => headerEmission mt (uview cfg .w64 x)
  | .hdrbig mt x => headerEmission mt (uview cfg .wbig x)
  | .int32 x => signedEmission (sview cfg .w32 x) cfg.negMode
  | .int64 x => signedEmission (sview cfg .w64 x) cfg.negMode
  | .intbig x => signedEmission (sview cfg .wbig x) cfg.negMode
  | .uint v => headerEmission 0 (uview cfg .w64 v)
  | .bstr v => headerEmission 2 (uview cfg .w64 v)
  | .tstr v => headerEmission 3 (uview cfg .w64 v)
  | .array v => headerEmission 4 (uview cfg .w64 v)
  | .map v => headerEmission 5 (uview cfg .w64 v)
  | .tag v => headerEmission 6 (uview cfg .w64 v)
  | .simple v => headerEmission 7 (uview cfg .w64 v)

/-- Every meaning is one acceptance: it always answers a next state. -/
theorem exec_eq_accept (i : Instr) (s : State) : exec i s = .next (s.accept (outcomeOf s.cfg i)) := by
  cases i <;> rfl

theorem outcomeOf_bytes_length {cfg : Config} {i : Instr} {bs : List Byte} (h : outcomeOf cfg i = .bytes bs) :
    1 ≤ bs.length ∧ bs.length ≤ 9 := by
  cases i <;> exact header_length ((headerEmission_eq_bytes_iff _ _ _).1 h)

/-- An issue runs as one acceptance, reserved bytes included (R35). -/
theorem runIssue_eq_accept (q : Issue) (s : State) : ∃ o, runIssue q s = .next (s.accept o) ∧
    ∀ bs, o = .bytes bs → 1 ≤ bs.length ∧ bs.length ≤ 9 := by
  unfold runIssue
  split
  · exact ⟨_, exec_eq_accept _ _, fun bs h => outcomeOf_bytes_length h⟩
  · exact ⟨.illegal, rfl, by simp⟩

/-- Everything the encoder's turn can do: nothing, or one acceptance of the oldest issue (R13). -/
theorem encoderTurn_cases (s : State) :
    ((s.ready = false ∨ s.issues = []) ∧ encoderTurn s = .next s) ∨
    ∃ q rest o, s.ready = true ∧ s.issues = q :: rest ∧
      encoderTurn s = .next (State.accept o { s with issues := rest }) ∧
      ∀ bs, o = .bytes bs → 1 ≤ bs.length ∧ bs.length ≤ 9 := by
  unfold encoderTurn
  cases hr : s.ready with
  | false => exact .inl ⟨.inl rfl, by simp⟩
  | true =>
    cases hi : s.issues with
    | nil => exact .inl ⟨.inr rfl, by simp⟩
    | cons q rest =>
      obtain ⟨o, ho, hb⟩ := runIssue_eq_accept q { s with issues := rest }
      exact .inr ⟨q, rest, o, rfl, rfl, by simpa using ho, hb⟩

/-- Everything the sink's answer can do (R22, R81). -/
theorem sinkAnswers_cases (r : Answer) (s : State) :
    ((s.rst = true ∨ s.phase = .idle) ∧ sinkAnswers r s = .next s) ∨
    (s.rst = false ∧ s.phase = .emit ∧ s.obuf[s.oidx]? = none ∧ sinkAnswers r s = .fault .noByteToOffer) ∨
    ∃ b, s.rst = false ∧ s.phase = .emit ∧ s.obuf[s.oidx]? = some b ∧
      ((r = .ok ∧ sinkAnswers r s = .next (s.byteTaken b)) ∨
       ∃ e, r = .err e ∧ sinkAnswers r s = .next (s.byteFailed e)) := by
  unfold sinkAnswers
  cases hr : s.rst with
  | true => exact .inl ⟨.inl rfl, by simp⟩
  | false =>
    cases hp : s.phase with
    | idle => exact .inl ⟨.inr rfl, by simp⟩
    | emit =>
      cases hb : s.obuf[s.oidx]? with
      | none => exact .inr (.inl ⟨rfl, rfl, rfl, by simp⟩)
      | some b =>
        refine .inr (.inr ⟨b, rfl, rfl, rfl, ?_⟩)
        cases r with
        | ok => exact .inl ⟨rfl, by simp⟩
        | err e => exact .inr ⟨e, rfl, by simp⟩

end Sys2Proof.Machine
end

