-- ==== Sys2Proof/Laws/PerInstr.lean ====
section
/-! SUPPORT. Families of statements about every instruction as syntax, one lemma a constructor. -/

namespace Sys2Proof.Laws.LegalByte

/-- The command byte is none of the reserved ones of 30_encoding.md R35. -/
def legal (c : Byte) : Bool :=
  fieldDOM c != 0#2 && fieldRSV c == 0#2 && (!fieldS c || fieldMT c == 0#3)

/-- The instruction is presented with a command byte that is not reserved. -/
def Statement (i : Instr) : Prop := legal (encode i).1 = true

theorem hdr32 (mt : BitVec 3) (x : Nat) : Statement (.hdr32 mt x) := by
  show legal (hdrByte mt 0b00001#5) = true
  revert mt; decide

theorem hdr64 (mt : BitVec 3) (x : Nat) : Statement (.hdr64 mt x) := by
  show legal (hdrByte mt 0b00010#5) = true
  revert mt; decide

theorem hdrbig (mt : BitVec 3) (x : Nat) : Statement (.hdrbig mt x) := by
  show legal (hdrByte mt 0b00011#5) = true
  revert mt; decide

theorem int32 (x : Nat) : Statement (.int32 x) := by
  show legal 0x05#8 = true
  decide

theorem int64 (x : Nat) : Statement (.int64 x) := by
  show legal 0x06#8 = true
  decide

theorem intbig (x : Nat) : Statement (.intbig x) := by
  show legal 0x07#8 = true
  decide

theorem uint (x : Nat) : Statement (.uint x) := by
  show legal 0x02#8 = true
  decide

theorem bstr (x : Nat) : Statement (.bstr x) := by
  show legal 0x42#8 = true
  decide

theorem tstr (x : Nat) : Statement (.tstr x) := by
  show legal 0x62#8 = true
  decide

theorem array (x : Nat) : Statement (.array x) := by
  show legal 0x82#8 = true
  decide

theorem map (x : Nat) : Statement (.map x) := by
  show legal 0xA2#8 = true
  decide

theorem tag (x : Nat) : Statement (.tag x) := by
  show legal 0xC2#8 = true
  decide

theorem simple (x : Nat) : Statement (.simple x) := by
  show legal 0xE2#8 = true
  decide

end Sys2Proof.Laws.LegalByte
end

