-- ==== Sys2Proof/Laws/Step.lean ====
section
/-! SUPPORT. Everything one step can do, said once. -/

namespace Sys2Proof.Machine

theorem step_of_nil {s : State} (h : s.turns = []) : step s = encoderTurn s := by
  unfold step; rw [h]

theorem step_of_cons {s : State} {t : Turn} {rest : List Turn} (h : s.turns = t :: rest) :
    step s = takeTurn t { s with turns := rest } := by
  unfold step; rw [h]

/-- The state as an agent finds it when it moves: its turn is off the schedule. -/
def State.moving (s : State) : State := { s with turns := s.turns.tail }

theorem State.moving_of_nil {s : State} (h : s.turns = []) : s.moving = s := by
  unfold State.moving; rw [h]; cases s; simp_all

@[simp] theorem State.moving_cfg (s : State) : s.moving.cfg = s.cfg := rfl
@[simp] theorem State.moving_phase (s : State) : s.moving.phase = s.phase := rfl
@[simp] theorem State.moving_res (s : State) : s.moving.res = s.res := rfl
@[simp] theorem State.moving_cnt (s : State) : s.moving.cnt = s.cnt := rfl
@[simp] theorem State.moving_serr (s : State) : s.moving.serr = s.serr := rfl
@[simp] theorem State.moving_obuf (s : State) : s.moving.obuf = s.obuf := rfl
@[simp] theorem State.moving_olen (s : State) : s.moving.olen = s.olen := rfl
@[simp] theorem State.moving_oidx (s : State) : s.moving.oidx = s.oidx := rfl
@[simp] theorem State.moving_rst (s : State) : s.moving.rst = s.rst := rfl
@[simp] theorem State.moving_issues (s : State) : s.moving.issues = s.issues := rfl
@[simp] theorem State.moving_stream (s : State) : s.moving.stream = s.stream := rfl
@[simp] theorem State.moving_turns (s : State) : s.moving.turns = s.turns.tail := rfl
@[simp] theorem State.moving_resets (s : State) : s.moving.resets = s.resets := rfl

/-- What one step did, when it answered a next state, and whose turn it was. -/
inductive Moved (s : State) : State → Prop where
  /-- Nothing but the turn passed: an encoder with nothing to do, or an answer nobody waits for. -/
  | waited : Moved s s.moving
  /-- The encoder accepted the oldest issue (R13). -/
  | accepted (q : Issue) (rest : List Issue) (o : Emission) (hrst : s.rst = false) (hp : s.phase = .idle)
      (hi : s.issues = q :: rest) (hb : ∀ bs, o = .bytes bs → 1 ≤ bs.length ∧ bs.length ≤ 9) :
      Moved s (State.accept o { s.moving with issues := rest })
  /-- The sink took the byte offered (R22). -/
  | taken (b : Byte) (hrst : s.rst = false) (hp : s.phase = .emit) (hb : s.obuf[s.oidx]? = some b)
      (ht : s.turns.head? = some (.answer .ok)) : Moved s (s.moving.byteTaken b)
  /-- The sink failed the byte offered (R22, R73). -/
  | failed (b : Byte) (e : BitVec 16) (hrst : s.rst = false) (hp : s.phase = .emit)
      (hb : s.obuf[s.oidx]? = some b) (ht : s.turns.head? = some (.answer (.err e))) :
      Moved s (s.moving.byteFailed e)
  | presented (q : Issue) (ht : s.turns.head? = some (.present q)) : Moved s (s.moving.present q)
  | hostWrote (bs : List Byte) (ht : s.turns.head? = some (.hostWrite bs)) : Moved s (s.moving.hostWrite bs)
  | rstAsserted (b : Bool) (ht : s.turns.head? = some (.assertRst b)) : Moved s (s.moving.assertRst b)
  | rstReleased (ht : s.turns.head? = some .releaseRst) : Moved s s.moving.releaseRst

theorem encoderTurn_moved {s t : State} (h : encoderTurn s.moving = .next t) : Moved s t := by
  rcases encoderTurn_cases s.moving with ⟨-, he⟩ | ⟨q, rest, o, hr, hi, he, hb⟩
  · rw [he] at h; cases h; exact .waited
  · rw [he] at h; cases h
    obtain ⟨hrst, hp⟩ := (State.ready_iff _).1 hr
    exact .accepted q rest o hrst hp hi hb

theorem sinkAnswers_moved {s t : State} {r : Answer} (ht : s.turns.head? = some (.answer r))
    (h : sinkAnswers r s.moving = .next t) : Moved s t := by
  rcases sinkAnswers_cases r s.moving with
    ⟨-, he⟩ | ⟨-, -, -, he⟩ | ⟨b, hrst, hp, hb, ⟨rfl, he⟩ | ⟨e, rfl, he⟩⟩ <;> rw [he] at h
  · cases h; exact .waited
  · cases h
  · cases h; exact .taken b hrst hp hb ht
  · cases h; exact .failed b e hrst hp hb ht

/-- Everything one step can do when it answers a next state. -/
theorem step_moved {s t : State} (h : step s = .next t) : Moved s t := by
  cases ht : s.turns with
  | nil =>
    rw [step_of_nil ht] at h
    exact encoderTurn_moved (by rw [State.moving_of_nil ht]; exact h)
  | cons m rest =>
    have hh : s.turns.head? = some m := by rw [ht]; rfl
    have hm : ({ s with turns := rest } : State) = s.moving := by unfold State.moving; rw [ht]; rfl
    rw [step_of_cons ht, hm] at h
    cases m with
    | encoder => exact encoderTurn_moved h
    | present q => cases h; exact .presented q hh
    | hostWrite bs => cases h; exact .hostWrote bs hh
    | answer r => exact sinkAnswers_moved hh h
    | assertRst b => cases h; exact .rstAsserted b hh
    | releaseRst => cases h; exact .rstReleased hh

/-- The machine stops in one way only: a byte is due and there is none (log 11). -/
theorem step_stops {s : State} (h : ∀ t, step s ≠ .next t) :
    s.rst = false ∧ s.phase = .emit ∧ s.obuf[s.oidx]? = none ∧ step s = .fault .noByteToOffer := by
  have henc : ∀ u : State, ∃ t, encoderTurn u = .next t := by
    intro u
    rcases encoderTurn_cases u with ⟨-, he⟩ | ⟨_, _, _, _, _, he, _⟩ <;> exact ⟨_, he⟩
  cases ht : s.turns with
  | nil =>
    obtain ⟨t, he⟩ := henc s
    exact absurd ((step_of_nil ht).trans he) (h t)
  | cons m rest =>
    have hs := step_of_cons ht
    cases m with
    | encoder =>
      obtain ⟨t, he⟩ := henc { s with turns := rest }
      exact absurd (hs.trans he) (h t)
    | present q => exact absurd hs (h _)
    | hostWrite bs => exact absurd hs (h _)
    | assertRst b => exact absurd hs (h _)
    | releaseRst => exact absurd hs (h _)
    | answer r =>
      rcases sinkAnswers_cases r { s with turns := rest } with
        ⟨-, he⟩ | ⟨h1, h2, h3, he⟩ | ⟨b, -, -, -, ⟨-, he⟩ | ⟨e, -, he⟩⟩
      · exact absurd (hs.trans he) (h _)
      · exact ⟨h1, h2, h3, hs.trans he⟩
      · exact absurd (hs.trans he) (h _)
      · exact absurd (hs.trans he) (h _)

/-! ## Runs -/

open Sys2Proof.Safety (steps)

@[simp] theorem steps_zero (s : State) : steps 0 s = .next s := rfl

theorem steps_succ {s t : State} (k : Nat) (h : step s = .next t) : steps (k + 1) s = steps k t := by
  simp only [steps, h]

/-- A run in pieces. -/
theorem steps_add {s t : State} (j k : Nat) (h : steps j s = .next t) : steps (j + k) s = steps k t := by
  induction j generalizing s with
  | zero => cases h; rw [Nat.zero_add]
  | succ j ih =>
    cases hs : step s with
    | next u =>
      rw [steps_succ j hs] at h
      rw [Nat.add_right_comm, steps_succ _ hs, ih h]
    | fault r => simp only [steps, hs] at h; cases h
    | refused r => simp only [steps, hs] at h; cases h

/-- Steps are the runs of the host's interface. -/
theorem steps_eq_run (k : Nat) (s : State) : steps k s = Sys2Proof.core.run k s := by
  induction k generalizing s with
  | zero => rfl
  | succ k ih =>
    have hc : Sys2Proof.core.step s = step s := rfl
    cases hs : step s with
    | next t => simp only [steps, Host.Core.run, hc, hs]; exact ih t
    | fault r => simp only [steps, Host.Core.run, hc, hs]; rfl
    | refused r => simp only [steps, Host.Core.run, hc, hs]; rfl

end Sys2Proof.Machine
end

