-- ==== Sys2Proof/Tests/Slice0.lean ====
section
/-! SUPPORT. Tests from the spec's own tables and vectors (95_test_vectors.md unless noted), the smoke tests of
WellFormed, and for every obligation with hypotheses a state and operands that meet them. -/

namespace Sys2Proof.Tests

open Sys2Proof.Machine Sys2Proof.Safety

/-! ## Small states -/

/-- Parameters of the vectors: `BIGW = 128`, `SERRW = 16`. -/
def cfg128 (m : NegMode) : Config := ⟨128, m, 16, by decide, by decide, by decide⟩

/-- The machine after reset, its parameters those of the vectors. -/
def idle (m : NegMode) : State := { State.reset with cfg := cfg128 m }

/-- A command waits. -/
def waiting (m : NegMode) (c : Byte) (x : Nat) : State := { idle m with issues := [⟨c, x⟩] }

/-- `uint 256` accepted, nothing taken yet: it emits `19 01 00`. -/
def emitting : State := { idle .abs with phase := .emit, obuf := [0x19, 0x01, 0x00], olen := 3 }

/-- What an outcome shows: the bytes to offer if the block emits, and `STATUS`. -/
def shows (o : Host.Outcome State Fault Refusal) : Option (List Byte × BitVec 32) :=
  match o with
  | .next t => some (if t.phase = .emit then t.obuf else [], t.status)
  | .fault _ => none
  | .refused _ => none

/-- The stream and `STATUS` an outcome leaves. -/
def leaves (o : Host.Outcome State Fault Refusal) : Option (List Byte × BitVec 32) :=
  match o with
  | .next t => some (t.stream, t.status)
  | .fault _ => none
  | .refused _ => none

/-! ## WellFormed: an ill-formed term for each check -/

theorem smoke_port_refuses : (Instr.hdrbig 0 (2 ^ 128)).wellFormed (cfg128 .abs) = false := by decide

theorem smoke_port_takes : (Instr.hdrbig 0 (2 ^ 128 - 1)).wellFormed (cfg128 .abs) = true := by decide

theorem smoke_kind_refuses : (Instr.bstr (2 ^ 64)).wellFormed (cfg128 .abs) = false := by decide

theorem smoke_kind_takes : (Instr.bstr (2 ^ 64 - 1)).wellFormed (cfg128 .abs) = true := by decide

/-! ## Decoding: words from the bit patterns of 30_encoding.md R34 and R38 -/

theorem test_decode_hdr32 : decodeTableWord 8 0b10100001 = some (.hdr32 5 0) := by decide
theorem test_decode_hdr64 : decodeTableWord 8 0b01100010 = some (.hdr64 3 0) := by decide
theorem test_decode_hdrbig : decodeTableWord 8 0b11000011 = some (.hdrbig 6 0) := by decide
theorem test_decode_int32 : decodeTableWord 8 0b00000101 = some (.int32 0) := by decide
theorem test_decode_int64 : decodeTableWord 8 0b00000110 = some (.int64 0) := by decide
theorem test_decode_intbig : decodeTableWord 8 0b00000111 = some (.intbig 0) := by decide
theorem test_decode_uint : decodeTableWord 8 0b00000010 = some (Instr.uint 0).expand := by decide
theorem test_decode_bstr : decodeTableWord 8 0b01000010 = some (Instr.bstr 0).expand := by decide
theorem test_decode_tstr : decodeTableWord 8 0b01100010 = some (Instr.tstr 0).expand := by decide
theorem test_decode_array : decodeTableWord 8 0b10000010 = some (Instr.array 0).expand := by decide
theorem test_decode_map : decodeTableWord 8 0b10100010 = some (Instr.map 0).expand := by decide
theorem test_decode_tag : decodeTableWord 8 0b11000010 = some (Instr.tag 0).expand := by decide
theorem test_decode_simple : decodeTableWord 8 0b11100010 = some (Instr.simple 0).expand := by decide

/-- Section 2.6: the operand rides above the command byte. -/
theorem test_decode_operand : decodeTableWord 136 0x1902 = some (.hdr64 0 0x19) := by decide

/-- Section 2.6: each reserved condition under its name. -/
theorem test_decode_reserved :
    decode 0x04#8 0 = .error .noDomain ∧ decode 0x11#8 0 = .error .reservedBits ∧
      decode 0x25#8 0 = .error .signedWithMajorType := ⟨rfl, rfl, rfl⟩

/-! ## Commands: sections 2.3 to 2.5, bytes to offer and `STATUS` at acceptance (`BUSY = 1`) -/

theorem test_hdr32 : shows (exec (.hdr32 7 0xFFFFFFFF) (idle .abs)) = some ([0xFA, 0xFF, 0xFF, 0xFF, 0xFF], 1) := by
  decide
theorem test_hdr32_ignores_bit_32 : shows (exec (.hdr32 0 0x100000017) (idle .abs)) = some ([0x17], 1) := by decide
theorem test_hdr64 : shows (exec (.hdr64 0 0x100000000) (idle .abs)) =
    some ([0x1B, 0, 0, 0, 1, 0, 0, 0, 0], 1) := by decide
theorem test_hdr64_ignores_bit_64 : shows (exec (.hdr64 0 0x10000000000000018) (idle .abs)) =
    some ([0x18, 0x18], 1) := by decide
theorem test_hdrbig : shows (exec (.hdrbig 6 24) (idle .abs)) = some ([0xD8, 0x18], 1) := by decide
theorem test_hdrbig_range : shows (exec (.hdrbig 0 0x10000000000000000) (idle .abs)) = some ([], 0x00000004) := by decide
theorem test_int32_abs : shows (exec (.int32 0xFFFFFFE8) (idle .abs)) = some ([0x38, 0x18], 1) := by decide
theorem test_int32_minus1_least : shows (exec (.int32 0x80000000) (idle .minus1)) =
    some ([0x3A, 0x7F, 0xFF, 0xFF, 0xFF], 1) := by decide
theorem test_int64_abs_least : shows (exec (.int64 0x8000000000000000) (idle .abs)) =
    some ([0x3B, 0x80, 0, 0, 0, 0, 0, 0, 0], 1) := by decide
theorem test_int64_minus1 : shows (exec (.int64 0xFFFFFFFFFFFF0000) (idle .minus1)) =
    some ([0x39, 0xFF, 0xFF], 1) := by decide
theorem test_intbig_abs_range : shows (exec (.intbig 0xFFFFFFFFFFFFFFFF0000000000000000) (idle .abs)) =
    some ([], 0x00000004) := by decide
theorem test_intbig_minus1 : shows (exec (.intbig 0xFFFFFFFFFFFFFFFF0000000000000000) (idle .minus1)) =
    some ([0x3B, 0xFF, 0xFF, 0xFF, 0xFF, 0xFF, 0xFF, 0xFF, 0xFF], 1) := by decide
theorem test_uint : shows (exec (.uint 65536) (idle .abs)) = some ([0x1A, 0x00, 0x01, 0x00, 0x00], 1) := by decide
theorem test_bstr : shows (exec (.bstr 3) (idle .abs)) = some ([0x43], 1) := by decide
theorem test_tstr : shows (exec (.tstr 300) (idle .abs)) = some ([0x79, 0x01, 0x2C], 1) := by decide
theorem test_array : shows (exec (.array 24) (idle .abs)) = some ([0x98, 0x18], 1) := by decide
theorem test_map : shows (exec (.map 256) (idle .abs)) = some ([0xB9, 0x01, 0x00], 1) := by decide
theorem test_tag : shows (exec (.tag 1500000000) (idle .abs)) = some ([0xDA, 0x59, 0x68, 0x2F, 0x00], 1) := by decide
theorem test_simple : shows (exec (.simple 20) (idle .abs)) = some ([0xF4], 1) := by decide

/-! ## The machine -/

/-- Section 2.6: a reserved byte with an operand of 2^64 is `ILLEGAL`, not `RANGE`. -/
theorem test_illegal_before_range : shows (step (waiting .abs 0x04 0x10000000000000000)) = some ([], 0x00000008) := by decide

/-- Section 2.8: `STATUS` with one byte of three taken. -/
theorem test_status_mid_command : leaves (step { emitting with turns := [.answer .ok] }) =
    some ([0x19], 0x00000011) := by decide

/-- Section 2.7: no failure. -/
theorem test_status_ok : leaves (step { emitting with
    turns := [.answer .ok], oidx := 2, cnt := 2, stream := [0x19, 0x01] }) =
    some ([0x19, 0x01, 0x00], 0x00000032) := by decide

/-- Section 2.7: byte 2 fails with code `0xFFFF`. -/
theorem test_status_sink : leaves (step { emitting with
    turns := [.answer (.err 0xFFFF)], oidx := 2, cnt := 2, stream := [0x19, 0x01] }) =
    some ([0x19, 0x01], 0xFFFF0026) := by decide

/-- Section 2.8: reset with a byte in flight, both streams. -/
theorem test_reset_in_flight :
    leaves (step { emitting with turns := [.assertRst false], oidx := 1, cnt := 1, stream := [0x19] }) =
      some ([0x19], 0) ∧
    leaves (step { emitting with turns := [.assertRst true], oidx := 1, cnt := 1, stream := [0x19] }) =
      some ([0x19, 0x01], 0) := by decide

/-- Section 2.8: a command presented while busy is not taken. -/
theorem test_busy_waits : leaves (step { emitting with issues := [⟨0x02, 5⟩], oidx := 1, cnt := 1, stream := [0x19] }) =
    some ([0x19], 0x00000011) := by decide

/-- Every row of the opcode table runs as the first instruction after reset, whatever the parameters. -/
theorem test_rows_run_from_reset :
    (shows (step (State.reset.withFetchWord 8 0x01)) = some ([0x00], 1)) ∧
    (shows (step (State.reset.withFetchWord 8 0x02)) = some ([0x00], 1)) ∧
    (shows (step (State.reset.withFetchWord 8 0x03)) = some ([0x00], 1)) ∧
    (shows (step (State.reset.withFetchWord 8 0x05)) = some ([0x00], 1)) ∧
    (shows (step (State.reset.withFetchWord 8 0x06)) = some ([0x00], 1)) ∧
    (step (State.reset.withFetchWord 8 0x07) matches .next _) ∧
    (shows (step (State.reset.withFetchWord 8 0x42)) = some ([0x40], 1)) ∧
    (shows (step (State.reset.withFetchWord 8 0x62)) = some ([0x60], 1)) ∧
    (shows (step (State.reset.withFetchWord 8 0x82)) = some ([0x80], 1)) ∧
    (shows (step (State.reset.withFetchWord 8 0xA2)) = some ([0xA0], 1)) ∧
    (shows (step (State.reset.withFetchWord 8 0xC2)) = some ([0xC0], 1)) ∧
    (shows (step (State.reset.withFetchWord 8 0xE2)) = some ([0xE0], 1)) := by decide

/-! ## Assembler and host lines (R38) -/

theorem test_parse_hdr : parseLine "hdr64 6, 0x14   # legacy" = some (.command (.hdr .w64 6 20)) := by decide
theorem test_parse_int : parseLine "intbig -18446744073709551616" =
    some (.command (.int .wbig (-18446744073709551616))) := by decide
theorem test_parse_kind : parseLine "tag 1" = some (.command (.kind .tag 1)) := by decide
theorem test_parse_no_minus : parseLine "hdr32 0, -1" = none := by decide
theorem test_parse_payload : parseLine "payload 61 62 63" = some (.payload [0x61, 0x62, 0x63]) := by decide
theorem test_parse_expect : parseLine "expect STATUS=0x00000012" = some (.expect 0x00000012) := by decide

/-- R38: the real spelling of a pseudo-command, and the written form of an encoded one. -/
theorem test_disassemble :
    (disassemble (cfg128 .abs) (.bstr 3)).text = "hdr64 2, 3".toList ∧
    (disassemble (cfg128 .abs) (.int32 0xFFFFFFFF)).text = "int32 -1".toList ∧
    Issue.text ⟨0xA2, 0x19⟩ = "CMD=0xA2 OPND=0x19".toList := by decide

/-- R38: what the disassembler prints reads back. -/
theorem test_text_reads_back :
    parseChars (AsmLine.text (.hdr .wbig 5 1500000000)) = some (.command (.hdr .wbig 5 1500000000)) ∧
    parseChars (AsmLine.text (.kind .simple 20)) = some (.command (.kind .simple 20)) := by decide

/-- Section 2.4: `int64 -2` of program P1. -/
theorem test_assemble_int64 : assemble (cfg128 .abs) (.int .w64 (-2)) =
    .ok ⟨0x06, 0xFFFFFFFFFFFFFFFFFFFFFFFFFFFFFFFE⟩ := by rfl

/-- R38: it refuses, it never truncates. -/
theorem test_assemble_refuses :
    assemble (cfg128 .abs) (.hdr .w32 0 0x100000017) = .error .operand ∧
      assemble (cfg128 .abs) (.hdr .w32 8 0) = .error .majorType := ⟨rfl, rfl⟩

/-- A header where no value is due, and one inside a payload. -/
theorem witness_HeadersAnnounceTheirDuties :
    dutiesKept [.header 0 1] 0 0 = false ∧ dutiesKept [.header 0 1] 2 1 = false := by decide

/-- R87 on program P1: array of three, with its payload; and one value short. -/
theorem test_duties :
    dutiesKept [.header 4 3, .header 0 1, .header 1 2, .header 2 3, .payload 3] 1 0 = true ∧
    dutiesKept [.header 4 3, .header 0 1, .header 1 2] 1 0 = false := by decide

/-! ## Witnesses: states and operands that meet the hypotheses of the obligations -/

theorem witness_DecodeEncodeRoundTrip :
    (Instr.intbig (2 ^ 128 - 1)).wellFormed (cfg128 .abs) = true ∧ (Instr.intbig (2 ^ 128 - 1)).isCommand = true ∧
    (Instr.simple (2 ^ 64 - 1)).wellFormed (cfg128 .abs) = true := by decide

theorem witness_DecodedTransactionIsItsEncoding : decode 0x42#8 7 = .ok (.hdr64 2 7) := rfl

/-- R38, at the limits of a spelling and just outside. -/
theorem witness_AssembledOperandIsTheNumberWritten :
    assemble (cfg128 .abs) (.int .w32 (-2147483648)) = .ok ⟨0x05, 0xFFFFFFFFFFFFFFFFFFFFFFFF80000000⟩ ∧
    assemble (cfg128 .abs) (.int .w32 2147483648) = .error .operand ∧
    assemble (cfg128 .abs) (.hdr .w64 7 0xFFFFFFFFFFFFFFFF) = .ok ⟨0xE2, 0xFFFFFFFFFFFFFFFF⟩ ∧
    assemble (cfg128 .abs) (.kind .map (2 ^ 64)) = .error .operand := ⟨rfl, rfl, rfl, rfl⟩

/-- The bounds of every band (also `PackerKeepsBothFields`). -/
theorem witness_ClassifierFollowsTheTable :
    classify 23 = some (23#5, 0) ∧ classify 24 = some (24#5, 1) ∧ classify 255 = some (24#5, 1) ∧
    classify 256 = some (25#5, 2) ∧ classify 65535 = some (25#5, 2) ∧ classify 65536 = some (26#5, 4) ∧
    classify (2 ^ 32 - 1) = some (26#5, 4) ∧ classify (2 ^ 32) = some (27#5, 8) ∧
    classify (2 ^ 64 - 1) = some (27#5, 8) ∧ classify (2 ^ 64) = none := by decide

theorem witness_HeaderBytesFollowTheTable :
    header 7 65536 = some [0xFA, 0x00, 0x01, 0x00, 0x00] ∧ header 0 (2 ^ 64) = none ∧
    tableBytes 7 65536 = some [0xFA, 0x00, 0x01, 0x00, 0x00] := by decide

theorem witness_ReaderRecoversHeader : header 6 24 = some [0xD8, 0x18] := by decide

theorem witness_SignSplit :
    signedSplit 0 .abs = (0, 0) ∧ signedSplit (-1) .abs = (1, 1) ∧ signedSplit (-1) .minus1 = (1, 0) ∧
    (0x80000000#32).toInt < 0 := by decide

theorem witness_LawsOfTheSignedCommands :
    signedEmission (-1) .minus1 = .bytes [0x20] ∧ signedEmission (-1) .abs = .bytes [0x21] ∧
    signedEmission (-18446744073709551616) .minus1 =
      .bytes [0x3B, 0xFF, 0xFF, 0xFF, 0xFF, 0xFF, 0xFF, 0xFF, 0xFF] := by decide

/-- A ready block: the hypotheses of every command's acceptance (`Hdr32StartsItsHeader`, `Hdr64StartsItsHeader`,
`Int32StartsItsHeader`, `Int64StartsItsHeader` and, with the witnesses below, the others). -/
theorem witness_ready : (idle .abs).rst = false ∧ (idle .abs).phase = .idle := by decide

theorem witness_HdrbigStartsItsHeaderOrEndsInRange :
    (2 ^ 64 - 1) % 2 ^ (idle .abs).cfg.bigw < 2 ^ 64 ∧ 2 ^ 64 ≤ 2 ^ 64 % 2 ^ (idle .abs).cfg.bigw := by decide

/-- The hypothesis on the value, at the sign boundary of 32 and of 64 bits, in both modes. -/
theorem witness_signed_values :
    signedValue 32 0x7FFFFFFF = 2 ^ 31 - 1 ∧ signedValue 32 0x80000000 = -2 ^ 31 ∧
    signedValue 64 0x8000000000000000 = -2 ^ 63 ∧
    (idle .abs).cfg.negMode = .abs ∧ (idle .minus1).cfg.negMode = .minus1 := by decide

theorem witness_IntbigStartsItsHeaderOrEndsInRange :
    signedValue (idle .abs).cfg.bigw 0x10000000000000000 = 2 ^ 64 ∧
    signedValue (idle .abs).cfg.bigw 0xFFFFFFFFFFFFFFFF0000000000000000 = -2 ^ 64 ∧
    signedValue (idle .minus1).cfg.bigw 0xFFFFFFFFFFFFFFFEFFFFFFFFFFFFFFFF = -2 ^ 64 - 1 := by decide

theorem witness_KindsStartTheirHeaders :
    (Instr.simple 20, 7) ∈ [(Instr.uint 20, 0), (.bstr 20, 2), (.tstr 20, 3), (.array 20, 4), (.map 20, 5), (.tag 20, 6),
      (.simple 20, 7)] := by decide

theorem witness_CommandFrame :
    shows (exec (.bstr 3) (idle .abs)) = some ([0x43], 1) ∧ emitting.phase = .emit := by decide

theorem witness_OnlyBigCommandsEndInRange :
    ∃ t, exec (.hdrbig 0 (2 ^ 64)) (idle .abs) = .next t ∧ t.res = .range := ⟨_, rfl, by decide⟩

theorem witness_StepRunsTheDecodedCommand :
    (waiting .abs 0x42 3).rst = false ∧ (waiting .abs 0x42 3).phase = .idle ∧
    (waiting .abs 0x42 3).issues = ⟨0x42, 3⟩ :: [] ∧ (waiting .abs 0x42 3).turns = [] := by decide

theorem witness_EveryCommandComputesEmission :
    decode 0x07#8 5 = .ok (.intbig 5) ∧
      emission (cfg128 .abs) 0x02 (2 ^ 64 - 1) = .bytes [0x1B, 0xFF, 0xFF, 0xFF, 0xFF, 0xFF, 0xFF, 0xFF, 0xFF] :=
  ⟨rfl, by decide⟩

/-- The operands of `DomainsAgree`, beyond the 64-bit domain. -/
theorem witness_DomainsAgree : 2 ^ 64 ≤ 2 ^ 64 ∧ 2 ^ 64 < 2 ^ (idle .abs).cfg.bigw := by decide

theorem witness_IssueAndCapture :
    emission (cfg128 .abs) 0xFF 0 = .illegal ∧ emission (cfg128 .abs) 0x03 (2 ^ 64) = .range ∧
    emission (cfg128 .abs) 0x03 24 = .bytes [0x18, 0x18] := by decide

/-- One byte for each reserved condition; `witness_StepRunsTheDecodedCommand` has the state. -/
theorem witness_ReservedByteEndsIllegal :
    (0x04#8).toNat % 4 = 0 ∧ (0x09#8).toNat / 8 % 4 ≠ 0 ∧ ((0x25#8).toNat / 4 % 2 = 1 ∧ (0x25#8).toNat / 32 ≠ 0) := by
  decide

theorem witness_BusyCommandWaits :
    let s := { emitting with turns := [.present ⟨0x02, 5⟩, .encoder] }
    s.phase = .emit ∧ s.turns = .present ⟨0x02, 5⟩ :: .encoder :: [] := by decide

theorem witness_AcceptanceForgetsTheLastCommand :
    let s₁ := waiting .abs 0x02 256
    let s₂ := { waiting .abs 0x02 256 with res := .sink, serr := 7, cnt := 3, stream := [0x19] }
    s₁.cfg.bigw = s₂.cfg.bigw ∧ s₁.cfg.negMode = s₂.cfg.negMode ∧ s₁.rst = false ∧ s₂.rst = false ∧
    s₁.phase = .idle ∧ s₂.phase = .idle ∧ s₁.issues = ⟨0x02, 256⟩ :: [] ∧ s₂.issues = ⟨0x02, 256⟩ :: [] ∧
    s₁.turns = [] ∧ s₂.turns = [] ∧ shows (step s₁) = some ([0x19, 0x01, 0x00], 1) ∧
    shows (step s₂) = some ([0x19, 0x01, 0x00], 1) := by decide

theorem witness_EmissionStep :
    emitting.rst = false ∧ emitting.phase = .emit ∧ emitting.obuf[emitting.oidx]? = some 0x19 ∧
    emitting.oidx + 1 ≠ emitting.olen ∧ (0xFFFF#16).toNat < 2 ^ emitting.cfg.serrw ∧
    ({ emitting with oidx := 2 } : State).oidx + 1 = emitting.olen := by decide

theorem witness_CommandRunsToOk :
    let s := { waiting .abs 0x02 256 with turns := [.encoder, .answer .ok, .answer .ok, .answer .ok] }
    s.rst = false ∧ s.phase = .idle ∧ s.issues = ⟨0x02, 256⟩ :: [] ∧
    emission s.cfg 0x02 256 = .bytes [0x19, 0x01, 0x00] ∧
    s.turns = .encoder :: (List.replicate 3 (.answer .ok) ++ []) := by decide

/-- Section 2.7, byte 2 fails: the hypotheses, and what the run leaves. -/
theorem witness_CommandRunsToSinkFailure :
    let s := { waiting .abs 0x02 256 with turns := [.encoder, .answer .ok, .answer .ok, .answer (.err 1)] }
    s.rst = false ∧ s.phase = .idle ∧ emission s.cfg 0x02 256 = .bytes [0x19, 0x01, 0x00] ∧
    (0x0001#16).toNat < 2 ^ s.cfg.serrw ∧
    s.turns = .encoder :: (List.replicate 2 (.answer .ok) ++ .answer (.err 1) :: []) ∧
    leaves (steps 4 s) = some ([0x19, 0x01], 0x00010026) := by decide

/-- Two commands, the second failed at its byte 1, a payload after the first. -/
theorem witness_StreamIsTheServedEmissionsInOrder :
    let jobs : List Job := [⟨⟨0x42, 1⟩, none, [0x61]⟩, ⟨⟨0x02, 256⟩, some (1, 5), []⟩]
    let s := { idle .abs with issues := jobs.map Job.issue, turns := jobs.flatMap (Job.turns (cfg128 .abs)) }
    s.rst = false ∧ s.phase = .idle ∧ s.issues = jobs.map Job.issue ∧ s.turns = jobs.flatMap (Job.turns s.cfg) ∧
    jobs.flatMap (fun j => j.taken s.cfg ++ j.payload) = [0x41, 0x61, 0x19] := by decide

/-- A step to a next state that changes `STATUS`: `ParametersNeverChange`, `BlockNeverReadsTheStream`,
`ResultStaysUntilTheNextAcceptance`, `StreamOnlyGrowsAtItsEnd`. -/
theorem witness_step_answers :
    ∃ t, step { emitting with turns := [.answer .ok] } = .next t ∧ t.status ≠ emitting.status := ⟨_, rfl, by decide⟩

/-- The host's turn is not next, so it keeps off. -/
theorem witness_StreamOnlyGrowsAtItsEnd :
    HostKeepsOff { emitting with turns := [.answer .ok] } ∧ emitting.phase = .emit :=
  ⟨fun _ _ _ h => (by cases h), rfl⟩

theorem witness_UnansweredWriteHoldsTheBlock : emitting.phase = .emit ∧ emitting.turns = [] := by decide

theorem witness_HostWriteTouchesOnlyTheStream :
    ({ emitting with turns := [.hostWrite [0x61]] } : State).turns = .hostWrite [0x61] :: [] := rfl

theorem witness_ResetStopsTheBlock :
    let s := { emitting with turns := [.assertRst true] }
    s.turns = .assertRst true :: [] ∧ s.rst = false ∧ s.phase = .emit ∧ s.obuf[s.oidx]? = some 0x19 := by decide

/-- The invariant at an emission in progress: the hypothesis of `InvariantKeptByEveryStep`,
`InvariantStatesAlwaysStep` and `StatusWord`. -/
theorem witness_inv_emitting : Inv { emitting with turns := [.answer .ok] } where
  serr_fits := by decide
  emitting := fun _ => ⟨by decide, by decide, by decide, by decide, by decide, by decide, by decide, by decide⟩
  idle := fun h => by cases h
  in_reset := fun h => by cases h

/-- The invariant in reset, with its release next: the hypotheses of `ResetHoldsTheBlock`. -/
theorem witness_inv_in_reset :
    let s := { idle .abs with rst := true, turns := [.releaseRst] }
    Inv s ∧ s.rst = true ∧ s.turns = .releaseRst :: [] :=
  ⟨⟨by decide, fun h => (by cases h),
    fun _ => ⟨by decide, by decide, by decide, by decide, by decide, by decide⟩, fun _ => by decide⟩, rfl, rfl⟩

end Sys2Proof.Tests
end

section
/-! Proofs of the statements of the family 00_scope.md. -/

namespace Sys2Proof.Machine

/-- R82: whatever a step did, it kept the parameters. Each move is one operation of the state, and each operation
has its rule for `cfg`. -/
theorem Moved.cfg_eq {s t : State} (h : Moved s t) : t.cfg = s.cfg := by
  cases h with
  | waited => exact s.moving_cfg
  | accepted q rest o => exact State.accept_cfg o _
  | taken b => exact State.byteTaken_cfg b _
  | failed b e => exact State.byteFailed_cfg e _
  | presented q => exact State.present_cfg q _
  | hostWrote bs => exact State.hostWrite_cfg bs _
  | rstAsserted b => exact State.assertRst_cfg b _
  | rstReleased => exact State.releaseRst_cfg _

end Sys2Proof.Machine

namespace Sys2Proof

/-- Settles O44: a step that answers a next state is one of the moves of `Moved`, and none of them changes `cfg`. -/
theorem parametersNeverChange : Obligations.ParametersNeverChange :=
  fun _ _ h => (Machine.step_moved h).cfg_eq

end Sys2Proof
end

section
/-! Proofs of the statements of the family 10_state.md, first part: the invariant of every run. -/

namespace Sys2Proof.Machine

/-! ## A byte taken: more to come, or the last one -/

theorem State.byteTaken_of_more {s : State} (b : Byte) (h : s.oidx + 1 ≠ s.olen) :
    s.byteTaken b =
      { s with stream := s.stream ++ [b], oidx := s.oidx + 1, cnt := BitVec.ofNat 4 (s.oidx + 1) } := by
  simp [State.byteTaken, h]

theorem State.byteTaken_of_last {s : State} (b : Byte) (h : s.oidx + 1 = s.olen) :
    s.byteTaken b =
      { s with stream := s.stream ++ [b], oidx := s.oidx + 1, cnt := BitVec.ofNat 4 (s.oidx + 1),
               res := .ok, phase := .idle } := by
  simp [State.byteTaken, State.finish, h]

end Sys2Proof.Machine

namespace Sys2Proof.Safety

open Sys2Proof.Machine

/-! ## Where the invariant holds -/

/-- R15: with `CNT` and `SERR` 0 every code but `OK` is legal. -/
theorem resultOk_of_nothing_counted {s : State} (hc : s.cnt = 0) (he : s.serr = 0) (hr : s.res ≠ .ok) :
    ResultOk s where
  cnt_of_none := fun _ => hc
  cnt_of_ok := fun h => absurd h hr
  cnt_of_range := fun _ => hc
  cnt_of_illegal := fun _ => hc
  cnt_of_sink := fun _ => by simp [hc]
  serr_of_not_sink := fun _ => he

/-- An idle block out of reset needs a legal result and an error code that fits. -/
theorem inv_of_idle {s : State} (hp : s.phase = .idle) (hrst : s.rst = false)
    (hfits : s.serr.toNat < 2 ^ s.cfg.serrw) (hr : ResultOk s) : Inv s where
  serr_fits := hfits
  emitting := fun h => by rw [hp] at h; cases h
  idle := fun _ => hr
  in_reset := fun h => by rw [hrst] at h; cases h

/-- An emitting block needs only what an emission fixes: its `SERR` is 0 and its `RST` low. -/
theorem inv_of_emitting {s : State} (hp : s.phase = .emit) (he : EmittingOk s) : Inv s where
  serr_fits := by simp [he.serr_zero]
  emitting := fun _ => he
  idle := fun h => by rw [hp] at h; cases h
  in_reset := fun h => by rw [he.rst_low] at h; cases h

/-- R19: the reset values have the invariant, whether `RST` is asserted or not. -/
theorem inv_of_reset_values {s : State} (hp : s.phase = .idle) (hr : s.res = .none) (hc : s.cnt = 0)
    (he : s.serr = 0) : Inv s where
  serr_fits := by simp [he]
  emitting := fun h => by rw [hp] at h; cases h
  idle := fun _ => resultOk_of_nothing_counted hc he (by simp [hr])
  in_reset := fun _ => ⟨hp, State.status_eq_zero_of_reset_values hp hr hc he⟩

/-! ## What each move does to it -/

/-- The invariant is about the block: it reads neither the waiting issues nor the stream nor the schedule, and it
asks something of `RST` only where that is asserted, so that its release keeps it (R80). -/
theorem Inv.of_same_block {s : State} (h : Inv s) (is : List Issue) (bs : List Byte) (ts : List Turn) {r : Bool}
    (hr : r = true → s.rst = true) : Inv { s with issues := is, stream := bs, turns := ts, rst := r } where
  serr_fits := h.serr_fits
  emitting := fun hp =>
    let e := h.emitting hp
    { length_pos := e.length_pos
      length_le := e.length_le
      olen_eq := e.olen_eq
      oidx_lt := e.oidx_lt
      cnt_eq := e.cnt_eq
      res_none := e.res_none
      serr_zero := e.serr_zero
      rst_low := Bool.eq_false_iff.2 fun ht => Bool.eq_false_iff.1 e.rst_low (hr ht) }
  idle := fun hp =>
    let c := h.idle hp
    ⟨c.cnt_of_none, c.cnt_of_ok, c.cnt_of_range, c.cnt_of_illegal, c.cnt_of_sink, c.serr_of_not_sink⟩
  in_reset := fun ht => h.in_reset (hr ht)

/-- R13: an acceptance by a ready block makes the invariant from nothing; it needs only the length of the bytes. -/
theorem inv_accept {s : State} {o : Emission} (hrst : s.rst = false) (hp : s.phase = .idle)
    (hb : ∀ bs, o = .bytes bs → 1 ≤ bs.length ∧ bs.length ≤ 9) : Inv (s.accept o) := by
  have hready : s.ready = true := s.ready_iff.2 ⟨hrst, hp⟩
  cases o with
  | illegal =>
    rw [State.accept_illegal hready]
    exact inv_of_idle rfl hrst (by simp) (resultOk_of_nothing_counted rfl rfl (by simp))
  | range =>
    rw [State.accept_range hready]
    exact inv_of_idle rfl hrst (by simp) (resultOk_of_nothing_counted rfl rfl (by simp))
  | bytes bs =>
    obtain ⟨hpos, hle⟩ := hb bs rfl
    rw [State.accept_bytes hready]
    exact inv_of_emitting rfl ⟨hpos, hle, rfl, hpos, rfl, rfl, rfl, hrst⟩

/-- R22: a byte taken moves `OIDX` and `CNT` together; the last one ends with `OK` and a count of 1 to 9. -/
theorem EmittingOk.inv_byteTaken {s : State} (e : EmittingOk s) (hp : s.phase = .emit) (b : Byte) :
    Inv (s.byteTaken b) := by
  have holen := e.olen_eq
  have hle := e.length_le
  have hlt := e.oidx_lt
  have hcnt : (BitVec.ofNat 4 (s.oidx + 1)).toNat = s.oidx + 1 :=
    Nat.mod_eq_of_lt (by omega)
  by_cases hlast : s.oidx + 1 = s.olen
  · rw [State.byteTaken_of_last b hlast]
    exact inv_of_idle rfl e.rst_low (by simp [e.serr_zero])
      { cnt_of_none := by simp
        cnt_of_ok := fun _ => by dsimp only; omega
        cnt_of_range := by simp
        cnt_of_illegal := by simp
        cnt_of_sink := by simp
        serr_of_not_sink := fun _ => e.serr_zero }
  · rw [State.byteTaken_of_more b hlast]
    exact inv_of_emitting hp
      ⟨e.length_pos, hle, holen, by dsimp only; omega, hcnt, e.res_none, e.serr_zero, e.rst_low⟩

/-- R22, R73: a failed byte ends with `SINK`; fewer than nine were taken and the recorded code fits `SERRW` bits. -/
theorem EmittingOk.inv_byteFailed {s : State} (e : EmittingOk s) (c : BitVec 16) : Inv (s.byteFailed c) := by
  have holen := e.olen_eq
  have hle := e.length_le
  have hlt := e.oidx_lt
  have hcnt := e.cnt_eq
  exact inv_of_idle rfl e.rst_low (serrOf_lt s.cfg c)
    { cnt_of_none := by simp
      cnt_of_ok := by simp
      cnt_of_range := by simp
      cnt_of_illegal := by simp
      cnt_of_sink := fun _ => by rw [State.byteFailed_cnt]; omega
      serr_of_not_sink := by simp }

end Sys2Proof.Safety

namespace Sys2Proof.Machine

open Sys2Proof.Safety (Inv inv_accept inv_of_reset_values)

/-- Whatever a step did, it kept the invariant. -/
theorem Moved.inv {s t : State} (h : Moved s t) (hi : Inv s) : Inv t := by
  have hm : Inv s.moving := hi.of_same_block s.issues s.stream s.turns.tail id
  cases h with
  | waited => exact hm
  | accepted q rest o hrst hp _ hb => exact inv_accept hrst hp hb
  | taken b _ hp => exact (hm.emitting hp).inv_byteTaken hp b
  | failed b e _ hp => exact (hm.emitting hp).inv_byteFailed e
  | presented q => exact hm.of_same_block _ _ _ id
  | hostWrote bs => exact hm.of_same_block _ _ _ id
  | rstAsserted b => exact inv_of_reset_values rfl rfl rfl rfl
  | rstReleased => exact hm.of_same_block _ _ _ (by simp)

end Sys2Proof.Machine

namespace Sys2Proof

/-- Settles O46: a step that answers a next state is one of the moves of `Moved`, and each of them keeps `Inv`. -/
theorem invariantKeptByEveryStep : Obligations.InvariantKeptByEveryStep :=
  fun _ _ hi h => (Machine.step_moved h).inv hi

/-- Settles O45: the reset state holds the reset values of R19. -/
theorem invariantHoldsAtReset : Obligations.InvariantHoldsAtReset :=
  Safety.inv_of_reset_values rfl rfl rfl rfl

end Sys2Proof
end

section
/-! Proofs of the statements of the family 10_state.md, second part: acceptance. -/

namespace Sys2Proof

/-- Of the parameters the width of a view depends on `BIGW` alone (R32). -/
theorem Dom.width_congr {cfg₁ cfg₂ : Config} (hw : cfg₁.bigw = cfg₂.bigw) (dom : Dom) :
    dom.width cfg₁ = dom.width cfg₂ := by
  cases dom with
  | w32 => rfl
  | w64 => rfl
  | wbig => exact hw

end Sys2Proof

namespace Sys2Proof.Machine

/-! ## The encoder's move -/

/-- When it is the encoder's turn, or nothing is scheduled, the step is the encoder's. -/
theorem step_of_encoder {s : State} (h : s.turns = [] ∨ s.turns.head? = some .encoder) :
    step s = encoderTurn s.moving := by
  cases ht : s.turns with
  | nil => rw [step_of_nil ht, State.moving_of_nil ht]
  | cons m rest =>
    obtain rfl : m = .encoder := by simpa [ht] using h
    rw [step_of_cons ht, State.moving, ht]
    rfl

/-- A ready block takes the oldest waiting issue (R13). -/
theorem step_takes_issue {s : State} {q : Issue} {rest : List Issue} (hrst : s.rst = false)
    (hp : s.phase = .idle) (hi : s.issues = q :: rest) (ht : s.turns = [] ∨ s.turns.head? = some .encoder) :
    step s = runIssue q { s with issues := rest, turns := s.turns.tail } := by
  have hready : s.moving.ready = true := s.moving.ready_iff.2 ⟨hrst, hp⟩
  rw [step_of_encoder ht, encoderTurn, if_pos hready, State.moving_issues, hi]
  rfl

theorem encoderTurn_not_ready {s : State} (h : s.ready = false) : encoderTurn s = .next s := by
  simp [encoderTurn, h]

/-! ## The outcome of an acceptance -/

/-- R43: an issue runs as the acceptance of its `Emission`, reserved bytes included. -/
theorem runIssue_eq_accept_emission (q : Issue) (s : State) :
    runIssue q s = .next (s.accept (emission s.cfg q.cmd q.opnd)) := by
  unfold runIssue decode emission
  cases decodeByte q.cmd with
  | error e => rfl
  | ok k =>
    cases k with
    | hdr dom mt => cases dom <;> rfl
    | int dom => cases dom <;> rfl

/-- R13: the step of a ready block is the acceptance of the oldest issue's `Emission`. -/
theorem step_accepts_emission {s : State} {q : Issue} {rest : List Issue} (hrst : s.rst = false)
    (hp : s.phase = .idle) (hi : s.issues = q :: rest) (ht : s.turns = [] ∨ s.turns.head? = some .encoder) :
    step s = .next (State.accept (emission s.cfg q.cmd q.opnd)
      { s with issues := rest, turns := s.turns.tail }) := by
  rw [step_takes_issue hrst hp hi ht, runIssue_eq_accept_emission]

/-- R17: `Emission` reads of the parameters `BIGW` and `NEG_MODE` alone. -/
theorem emission_congr {cfg₁ cfg₂ : Config} (hw : cfg₁.bigw = cfg₂.bigw) (hm : cfg₁.negMode = cfg₂.negMode)
    (c : Byte) (x : Nat) : emission cfg₁ c x = emission cfg₂ c x := by
  have hu (dom : Dom) : uview cfg₁ dom x = uview cfg₂ dom x := by
    rw [uview, uview, opndField, opndField, dom.width_congr hw]
  have hs (dom : Dom) : sview cfg₁ dom x = sview cfg₂ dom x := by
    rw [sview, sview, opndField, opndField, dom.width_congr hw]
  unfold emission
  simp only [hu, hs, hm]

/-! ## What acceptance leaves -/

/-- An acceptance that starts no emission leaves the emission registers alone. -/
theorem State.accept_registers_of_idle {s : State} {o : Emission} (h : (s.accept o).phase = .idle) :
    (s.accept o).obuf = s.obuf ∧ (s.accept o).olen = s.olen ∧ (s.accept o).oidx = s.oidx := by
  cases hr : s.ready with
  | false => simp [State.accept_not_ready hr]
  | true =>
    cases o with
    | illegal => simp [State.accept_illegal hr]
    | range => simp [State.accept_range hr]
    | bytes bs => simp [State.accept_bytes hr] at h

/-- R17: what an outcome leaves in a ready block does not depend on the block. -/
theorem State.accept_agree {s₁ s₂ : State} (h₁ : s₁.ready = true) (h₂ : s₂.ready = true) (o : Emission) :
    (s₁.accept o).status = (s₂.accept o).status ∧ (s₁.accept o).phase = (s₂.accept o).phase ∧
      ((s₁.accept o).phase = .emit → (s₁.accept o).obuf = (s₂.accept o).obuf ∧
        (s₁.accept o).olen = (s₂.accept o).olen ∧ (s₁.accept o).oidx = (s₂.accept o).oidx) := by
  cases o with
  | illegal => simp [State.accept_illegal h₁, State.accept_illegal h₂, State.status, State.busy]
  | range => simp [State.accept_range h₁, State.accept_range h₂, State.status, State.busy]
  | bytes bs => simp [State.accept_bytes h₁, State.accept_bytes h₂, State.status, State.busy]

end Sys2Proof.Machine

namespace Sys2Proof

open Machine

/-- Settles O25: the encoder's move takes the oldest issue, and an issue that decodes runs its instruction. -/
theorem stepRunsTheDecodedCommand : Obligations.StepRunsTheDecodedCommand := by
  intro s q rest i hrst hp hi hd ht
  rw [step_takes_issue hrst hp hi ht, runIssue, hd]

/-- Settles O23: every meaning is one acceptance, which writes the block's registers only. -/
theorem commandFrame : Obligations.CommandFrame := by
  intro i s t h
  obtain rfl : s.accept (outcomeOf s.cfg i) = t := by simpa [exec_eq_accept] using h
  refine ⟨State.accept_cfg _ s, State.accept_rst _ s, State.accept_issues _ s, State.accept_stream _ s,
    State.accept_turns _ s, State.accept_resets _ s, State.accept_registers_of_idle, fun hbusy => ?_⟩
  have hnot : s.ready = false := by
    rcases hbusy with hrst | hp
    · simp [State.ready, hrst]
    · simp [State.ready, hp]
  exact State.accept_not_ready hnot _

/-- Settles O27: the step of a ready block is the acceptance of its issue's outcome, a block that emits is not
ready, and the host's presenting is one update of the waiting issues. -/
theorem issueAndCapture : Obligations.IssueAndCapture := by
  refine ⟨fun s q rest hrst hp hi ht => ?_, fun s hp ht => ?_, fun s q ts ht => step_of_cons ht⟩
  · have hstep := step_accepts_emission hrst hp hi ht
    have hready : State.ready { s with issues := rest, turns := s.turns.tail } = true :=
      (State.ready_iff _).2 ⟨hrst, hp⟩
    refine ⟨fun ho => ?_, fun ho => ?_, fun bs ho => ?_⟩
    · rw [hstep, ho, State.accept_illegal hready]; rfl
    · rw [hstep, ho, State.accept_range hready]; rfl
    · rw [hstep, ho, State.accept_bytes hready]; rfl
  · have hnot : s.moving.ready = false := by simp [State.ready, hp]
    rw [step_of_encoder ht, encoderTurn_not_ready hnot]
    rfl

/-- Settles O30: both machines accept the same outcome, and an outcome leaves the same in every ready block. -/
theorem acceptanceForgetsTheLastCommand : Obligations.AcceptanceForgetsTheLastCommand := by
  intro s₁ s₂ t₁ t₂ q r₁ r₂ hw hm hrst₁ hp₁ hi₁ ht₁ hrst₂ hp₂ hi₂ ht₂ h₁ h₂
  rw [step_accepts_emission hrst₁ hp₁ hi₁ (.inl ht₁)] at h₁
  rw [step_accepts_emission hrst₂ hp₂ hi₂ (.inl ht₂), ← emission_congr hw hm] at h₂
  obtain rfl := Host.Outcome.next.inj h₁
  obtain rfl := Host.Outcome.next.inj h₂
  have hready₁ : State.ready { s₁ with issues := r₁, turns := s₁.turns.tail } = true :=
    (State.ready_iff _).2 ⟨hrst₁, hp₁⟩
  have hready₂ : State.ready { s₂ with issues := r₂, turns := s₂.turns.tail } = true :=
    (State.ready_iff _).2 ⟨hrst₂, hp₂⟩
  exact State.accept_agree hready₁ hready₂ _

end Sys2Proof
end

section
/-! Proofs of the statements of the family 10_state.md, third part: an emission the sink takes byte by byte. -/

namespace Sys2Proof.Machine

open Sys2Proof.Safety (steps)

/-- With a byte offered, an `ok` of the sink takes it (R22). -/
theorem step_takes_byte {s : State} {b : Byte} {ts : List Turn} (hrst : s.rst = false) (hp : s.phase = .emit)
    (hb : s.obuf[s.oidx]? = some b) (ht : s.turns = .answer .ok :: ts) :
    step s = .next (State.byteTaken b { s with turns := ts }) := by
  rw [step_of_cons ht]
  simp [takeTurn, sinkAnswers, hrst, hp, hb]

/-- The block while it emits `bs`, the sink having taken the first `k` bytes, with `ts` scheduled. -/
def State.emittedUpTo (bs : List Byte) (k : Nat) (ts : List Turn) (s : State) : State :=
  { s with
    res := .none, cnt := BitVec.ofNat 4 k, serr := 0, obuf := bs, olen := bs.length, oidx := k, phase := .emit
    stream := s.stream ++ bs.take k, turns := ts }

/-- The block after `bs` has all been taken, with `ts` scheduled: it is idle with `OK` (R15, R22). -/
def State.emittedAll (bs : List Byte) (ts : List Turn) (s : State) : State :=
  { s with
    res := .ok, cnt := BitVec.ofNat 4 bs.length, serr := 0, obuf := bs, olen := bs.length, oidx := bs.length
    phase := .idle, stream := s.stream ++ bs, turns := ts }

/-- A list outcome starts its emission with no byte taken (R13). -/
theorem step_starts_emission {s : State} {q : Issue} {rest : List Issue} {bs : List Byte} {ts : List Turn}
    (hrst : s.rst = false) (hp : s.phase = .idle) (hi : s.issues = q :: rest)
    (ho : emission s.cfg q.cmd q.opnd = .bytes bs) (ht : s.turns = .encoder :: ts) :
    step s = .next (State.emittedUpTo bs 0 ts { s with issues := rest }) := by
  have hready : State.ready { s with issues := rest, turns := s.turns.tail } = true :=
    (State.ready_iff _).2 ⟨hrst, hp⟩
  rw [step_accepts_emission hrst hp hi (.inr (by simp [ht])), ho, State.accept_bytes hready]
  simp [State.emittedUpTo, State.clearResult, State.startEmission, ht]

/-- An `ok` to a byte that is not the last moves the emission on by that byte (R22). -/
theorem step_emittedUpTo_more {s : State} {bs : List Byte} {k : Nat} (ts : List Turn) (hrst : s.rst = false)
    (hk : k + 1 < bs.length) :
    step (s.emittedUpTo bs k (.answer .ok :: ts)) = .next (s.emittedUpTo bs (k + 1) ts) := by
  have hlt : k < bs.length := by omega
  rw [step_takes_byte (s := s.emittedUpTo bs k _) hrst rfl (List.getElem?_eq_getElem hlt) rfl,
    State.byteTaken_of_more _ (Nat.ne_of_lt hk)]
  simp only [State.emittedUpTo, List.append_assoc, List.take_concat_get' bs k hlt]

/-- An `ok` to the last byte ends the command with `OK` (R22). -/
theorem step_emittedUpTo_last {s : State} {bs : List Byte} {k : Nat} (ts : List Turn) (hrst : s.rst = false)
    (hk : k + 1 = bs.length) :
    step (s.emittedUpTo bs k (.answer .ok :: ts)) = .next (s.emittedAll bs ts) := by
  have hlt : k < bs.length := by omega
  rw [step_takes_byte (s := s.emittedUpTo bs k _) hrst rfl (List.getElem?_eq_getElem hlt) rfl,
    State.byteTaken_of_last _ hk]
  simp only [State.emittedUpTo, State.emittedAll, List.append_assoc, List.take_concat_get' bs k hlt, hk,
    List.take_length]

/-- So many `ok`s that leave a byte to offer, one step each (R22). -/
theorem steps_emittedUpTo {s : State} {bs : List Byte} (k j : Nat) (ts : List Turn) (hrst : s.rst = false)
    (hk : k + j < bs.length) :
    steps j (s.emittedUpTo bs k (List.replicate j (.answer .ok) ++ ts)) = .next (s.emittedUpTo bs (k + j) ts) := by
  induction j generalizing k with
  | zero => rfl
  | succ j ih =>
    have hfirst := step_emittedUpTo_more (List.replicate j (.answer .ok) ++ ts) hrst
      (show k + 1 < bs.length by omega)
    rw [List.replicate_succ, List.cons_append, steps_succ j hfirst, ih (k + 1) (by omega), Nat.add_right_comm,
      Nat.add_assoc]

/-- The sink takes a whole emission, one step a byte (R28). -/
theorem steps_emittedAll {s : State} {bs : List Byte} (ts : List Turn) (hrst : s.rst = false)
    (hpos : 1 ≤ bs.length) :
    steps bs.length (s.emittedUpTo bs 0 (List.replicate bs.length (.answer .ok) ++ ts)) =
      .next (s.emittedAll bs ts) := by
  obtain ⟨k, hk⟩ : ∃ k, bs.length = k + 1 := ⟨bs.length - 1, by omega⟩
  have hmost := steps_emittedUpTo (s := s) (bs := bs) 0 k (.answer .ok :: ts) hrst (by omega)
  have hlast := step_emittedUpTo_last (s := s) (bs := bs) (k := 0 + k) ts hrst (by omega)
  rw [hk, List.replicate_succ', List.append_assoc, List.singleton_append, steps_add k 1 hmost, steps_succ 0 hlast,
    steps_zero]

/-- A list outcome of any command has a byte (R42). -/
theorem emission_bytes_length {cfg : Config} {c : Byte} {x : Nat} {bs : List Byte}
    (h : emission cfg c x = .bytes bs) : 1 ≤ bs.length ∧ bs.length ≤ 9 := by
  unfold emission at h
  split at h
  · cases h
  · exact header_length ((headerEmission_eq_bytes_iff _ _ _).1 h)
  · exact header_length ((headerEmission_eq_bytes_iff _ _ _).1 h)

end Sys2Proof.Machine

namespace Sys2Proof

open Machine

/-- Settles O32: the acceptance starts the emission, and the sink takes it one step a byte. -/
theorem commandRunsToOk : Obligations.CommandRunsToOk := by
  intro s q rest bs later hrst hp hi ho ht
  have hstart : Safety.steps 1 s = .next _ := steps_succ 0 (step_starts_emission hrst hp hi ho ht)
  rw [steps_add 1 bs.length hstart]
  exact steps_emittedAll (s := { s with issues := rest }) later hrst (emission_bytes_length ho).1

end Sys2Proof
end

section
/-! Proofs of the statements of the family 10_state.md, fourth part: the `STATUS` word. -/

namespace Sys2Proof.Machine

/-! ## The word as a number -/

/-- A concatenation as a number: the left part above the bits of the right one. -/
theorem toNat_append_eq_add {m n : Nat} (x : BitVec m) (y : BitVec n) :
    (x ++ y).toNat = 2 ^ n * x.toNat + y.toNat := by
  rw [BitVec.toNat_append, ← Nat.shiftLeft_add_eq_or_of_lt y.isLt, Nat.shiftLeft_eq, Nat.mul_comm]

theorem State.busy_toNat (s : State) : s.busy.toNat = if s.phase = .emit then 1 else 0 := by
  unfold State.busy
  cases s.phase <;> rfl

/-- R14: the fields of `STATUS` at their bit positions. -/
theorem State.status_toNat (s : State) :
    s.status.toNat = 65536 * s.serr.toNat + 16 * s.cnt.toNat + 2 * s.res.code.toNat +
      (if s.phase = .emit then 1 else 0) := by
  rw [← s.busy_toNat, State.status]
  simp only [toNat_append_eq_add, BitVec.toNat_ofNat]
  omega

theorem Res.code_le_four (r : Res) : r.code.toNat ≤ 4 := by
  cases r <;> decide

/-! ## The moves that leave it alone -/

@[simp] theorem State.moving_status (s : State) : s.moving.status = s.status := rfl
@[simp] theorem State.present_status (q : Issue) (s : State) : (s.present q).status = s.status := rfl
@[simp] theorem State.hostWrite_status (bs : List Byte) (s : State) : (s.hostWrite bs).status = s.status := rfl
@[simp] theorem State.releaseRst_status (s : State) : s.releaseRst.status = s.status := rfl

end Sys2Proof.Machine

namespace Sys2Proof.Safety

/-! ## Its values under the invariant -/

/-- R15: an idle block's `CNT` is at most 9, whatever its result code. -/
theorem ResultOk.cnt_le_nine {s : Machine.State} (r : ResultOk s) : s.cnt.toNat ≤ 9 := by
  cases hr : s.res with
  | none => simp [r.cnt_of_none hr]
  | ok => exact (r.cnt_of_ok hr).2
  | range => simp [r.cnt_of_range hr]
  | sink => exact Nat.le_succ_of_le (r.cnt_of_sink hr)
  | illegal => simp [r.cnt_of_illegal hr]

theorem EmittingOk.cnt_le_nine {s : Machine.State} (e : EmittingOk s) : s.cnt.toNat ≤ 9 := by
  have holen := e.olen_eq
  have hle := e.length_le
  have hlt := e.oidx_lt
  have hcnt := e.cnt_eq
  omega

theorem Inv.cnt_le_nine {s : Machine.State} (h : Inv s) : s.cnt.toNat ≤ 9 := by
  cases hp : s.phase with
  | idle => exact (h.idle hp).cnt_le_nine
  | emit => exact (h.emitting hp).cnt_le_nine

/-- An error code is there only after `SINK` (R14). -/
theorem Inv.serr_of_not_sink {s : Machine.State} (h : Inv s) (hr : s.res ≠ .sink) : s.serr = 0 := by
  cases hp : s.phase with
  | idle => exact (h.idle hp).serr_of_not_sink hr
  | emit => exact (h.emitting hp).serr_zero

end Sys2Proof.Safety

namespace Sys2Proof

open Machine

/-- Settles O39: the fields at their positions, their values under the invariant, and no part of the host's two
transactions in the word. -/
theorem statusWord : Obligations.StatusWord := by
  refine ⟨State.status_toNat, by decide, fun s h => ?_, fun s q bs => ⟨s.present_status q, s.hostWrite_status bs⟩⟩
  have hemit : s.phase = .emit → s.res = .none ∧ s.cnt.toNat = s.oidx :=
    fun hp => ⟨(h.emitting hp).res_none, (h.emitting hp).cnt_eq⟩
  exact ⟨h.cnt_le_nine, s.res.code_le_four, h.serr_fits, hemit, h.serr_of_not_sink⟩

/-- Settles O43: of the moves a step can be, the encoder's acceptance, the sink's two answers and the assertion of
`RST` are the ones that write a field of `STATUS`. -/
theorem resultStaysUntilTheNextAcceptance : Obligations.ResultStaysUntilTheNextAcceptance := by
  intro s t h hne
  cases step_moved h with
  | waited => exact absurd s.moving_status hne
  | accepted q rest o hrst hp hi => exact .inl ⟨hp, hrst, q, by simp [hi]⟩
  | taken b _ hp => exact .inr (.inl hp)
  | failed b e _ hp => exact .inr (.inl hp)
  | presented q => exact absurd (State.present_status q _) hne
  | hostWrote bs => exact absurd (State.hostWrite_status bs _) hne
  | rstAsserted b ht => exact .inr (.inr ⟨b, ht⟩)
  | rstReleased => exact absurd (State.releaseRst_status _) hne

/-- Settles O40: the reset state holds the values of R19, and the word of those is 0. -/
theorem resetValues : Obligations.ResetValues := by
  have hword : State.reset.status = 0 := State.status_eq_zero_of_reset_values rfl rfl rfl rfl
  exact ⟨rfl, rfl, rfl, rfl, rfl, by rw [hword]; decide, hword⟩

end Sys2Proof
end

section
/-! Proofs of the statements of the family 20_memory.md, first part: one emission step, and what a step does to the
stream. -/

namespace Sys2Proof.Machine

open Sys2Proof.Safety (steps HostKeepsOff)

/-! ## The byte offered -/

theorem State.offered_of_idle {s : State} (hp : s.phase = .idle) : s.offered = none := by
  simp [State.offered, hp]

theorem State.offered_of_emit {s : State} (hrst : s.rst = false) (hp : s.phase = .emit) :
    s.offered = s.obuf[s.oidx]? := by
  simp [State.offered, hrst, hp]

@[simp] theorem State.moving_offered (s : State) : s.moving.offered = s.offered := rfl

/-- With a byte offered, an `err` of the sink fails it (R22). -/
theorem step_fails_byte {s : State} {b : Byte} {e : BitVec 16} {ts : List Turn} (hrst : s.rst = false)
    (hp : s.phase = .emit) (hb : s.obuf[s.oidx]? = some b) (ht : s.turns = .answer (.err e) :: ts) :
    step s = .next (State.byteFailed e { s with turns := ts }) := by
  rw [step_of_cons ht]
  simp [takeTurn, sinkAnswers, hrst, hp, hb]

/-! ## Waiting for the sink -/

/-- R23: with nothing scheduled a block that emits stays as it is. -/
theorem step_of_unanswered {s : State} (hp : s.phase = .emit) (ht : s.turns = []) : step s = .next s := by
  have hnot : s.ready = false := by simp [State.ready, hp]
  rw [step_of_nil ht, encoderTurn_not_ready hnot]

/-! ## What a step adds to the stream -/

/-- R20, R26: nothing, the byte offered, or what the host writes at its turn. -/
theorem Moved.stream_cases {s t : State} (h : Moved s t) :
    t.stream = s.stream ∨
    (∃ b, s.offered = some b ∧ t.stream = s.stream ++ [b]) ∨
    ∃ bs, s.turns.head? = some (.hostWrite bs) ∧ t.stream = s.stream ++ bs := by
  cases h with
  | waited => exact .inl rfl
  | accepted q rest o => exact .inl (State.accept_stream o _)
  | taken b hrst hp hb =>
    exact .inr (.inl ⟨b, (State.offered_of_emit hrst hp).trans hb, State.byteTaken_stream b _⟩)
  | failed b e => exact .inl rfl
  | presented q => exact .inl rfl
  | hostWrote bs ht => exact .inr (.inr ⟨bs, ht, rfl⟩)
  | rstAsserted taken =>
    cases taken with
    | false => exact .inl rfl
    | true =>
      cases ho : s.offered with
      | none => exact .inl (by simp [ho])
      | some b => exact .inr (.inl ⟨b, rfl, by simp [ho]⟩)
  | rstReleased => exact .inl rfl

/-- R84: a host that keeps off a block that emits has not the next turn. -/
theorem not_hostWrite_of_keepsOff {s : State} (hoff : HostKeepsOff s) (hp : s.phase = .emit) (bs : List Byte) :
    s.turns.head? ≠ some (.hostWrite bs) := by
  intro ht
  obtain ⟨rest, hrest⟩ := List.head?_eq_some_iff.1 ht
  exact hoff hp bs rest hrest

/-! ## More bytes in front of the stream -/

/-- The machine with `before` in front of what its stream holds. -/
def State.prepend (before : List Byte) (s : State) : State := { s with stream := before ++ s.stream }

/-- An outcome whose next state, if it has one, holds `before` in front of its stream. -/
def prependOutcome (before : List Byte) : Host.Outcome State Fault Refusal → Host.Outcome State Fault Refusal
  | .next t => .next (t.prepend before)
  | .fault r => .fault r
  | .refused r => .refused r

theorem State.prepend_accept (before : List Byte) (o : Emission) (s : State) :
    (s.prepend before).accept o = (s.accept o).prepend before := by
  have hsame : (s.prepend before).ready = s.ready := rfl
  cases hr : s.ready with
  | false => rw [State.accept_not_ready hr, State.accept_not_ready (hsame.trans hr)]
  | true =>
    cases o with
    | illegal => rw [State.accept_illegal hr, State.accept_illegal (hsame.trans hr)]; rfl
    | range => rw [State.accept_range hr, State.accept_range (hsame.trans hr)]; rfl
    | bytes bs => rw [State.accept_bytes hr, State.accept_bytes (hsame.trans hr)]; rfl

theorem State.prepend_byteTaken (before : List Byte) (b : Byte) (s : State) :
    (s.prepend before).byteTaken b = (s.byteTaken b).prepend before := by
  by_cases hlast : s.oidx + 1 = s.olen
  · rw [State.byteTaken_of_last b hlast, State.byteTaken_of_last (s := s.prepend before) b hlast]
    simp [State.prepend]
  · rw [State.byteTaken_of_more b hlast, State.byteTaken_of_more (s := s.prepend before) b hlast]
    simp [State.prepend]

theorem State.prepend_hostWrite (before bs : List Byte) (s : State) :
    (s.prepend before).hostWrite bs = (s.hostWrite bs).prepend before := by
  simp [State.prepend, State.hostWrite]

theorem State.prepend_assertRst (before : List Byte) (taken : Bool) (s : State) :
    (s.prepend before).assertRst taken = (s.assertRst taken).prepend before := by
  have hsame : (s.prepend before).offered = s.offered := rfl
  cases taken <;> simp [State.prepend, State.assertRst, ← hsame]

theorem runIssue_prepend (before : List Byte) (q : Issue) (s : State) :
    runIssue q (s.prepend before) = prependOutcome before (runIssue q s) := by
  rw [runIssue_eq_accept_emission, runIssue_eq_accept_emission, State.prepend_accept]
  rfl

theorem encoderTurn_prepend (before : List Byte) (s : State) :
    encoderTurn (s.prepend before) = prependOutcome before (encoderTurn s) := by
  have hready : (s.prepend before).ready = s.ready := rfl
  have hissues : (s.prepend before).issues = s.issues := rfl
  unfold encoderTurn
  rw [hready, hissues]
  cases s.ready with
  | false => rfl
  | true =>
    cases s.issues with
    | nil => rfl
    | cons q rest => exact runIssue_prepend before q { s with issues := rest }

theorem sinkAnswers_prepend (before : List Byte) (r : Answer) (s : State) :
    sinkAnswers r (s.prepend before) = prependOutcome before (sinkAnswers r s) := by
  have hrst : (s.prepend before).rst = s.rst := rfl
  have hphase : (s.prepend before).phase = s.phase := rfl
  have hbyte : (s.prepend before).obuf[(s.prepend before).oidx]? = s.obuf[s.oidx]? := rfl
  unfold sinkAnswers
  rw [hrst, hphase, hbyte]
  cases s.rst with
  | true => rfl
  | false =>
    cases s.phase with
    | idle => rfl
    | emit =>
      cases s.obuf[s.oidx]? with
      | none => rfl
      | some b =>
        cases r with
        | ok => exact congrArg Host.Outcome.next (State.prepend_byteTaken before b s)
        | err e => rfl

theorem takeTurn_prepend (before : List Byte) (m : Turn) (s : State) :
    takeTurn m (s.prepend before) = prependOutcome before (takeTurn m s) := by
  cases m with
  | encoder => exact encoderTurn_prepend before s
  | present q => rfl
  | hostWrite bs => exact congrArg Host.Outcome.next (State.prepend_hostWrite before bs s)
  | answer r => exact sinkAnswers_prepend before r s
  | assertRst taken => exact congrArg Host.Outcome.next (State.prepend_assertRst before taken s)
  | releaseRst => rfl

/-- R26: whoever moves, bytes in front of the stream change nothing but the stream. -/
theorem step_prepend (before : List Byte) (s : State) :
    step (s.prepend before) = prependOutcome before (step s) := by
  cases ht : s.turns with
  | nil => rw [step_of_nil ht, step_of_nil (s := s.prepend before) ht, encoderTurn_prepend]
  | cons m rest =>
    rw [step_of_cons ht, step_of_cons (s := s.prepend before) ht]
    exact takeTurn_prepend before m { s with turns := rest }

end Sys2Proof.Machine

namespace Sys2Proof

open Machine

/-- Settles O31: the step is the sink's answer to the byte offered, which takes it with more to come, takes it as the
last, or fails it with a code that `SERRW` bits hold. -/
theorem emissionStep : Obligations.EmissionStep := by
  refine ⟨fun s hp => State.offered_of_idle hp, fun s b ts hrst hp hb => ⟨?_, ?_, ?_⟩⟩
  · intro ht hmore
    rw [step_takes_byte hrst hp hb ht, State.byteTaken_of_more (s := { s with turns := ts }) b hmore]
  · intro ht hlast
    rw [step_takes_byte hrst hp hb ht, State.byteTaken_of_last (s := { s with turns := ts }) b hlast]
  · intro e he ht
    rw [step_fails_byte hrst hp hb ht, State.byteFailed, serrOf_eq _ he]
    rfl

/-- Settles O37, by induction on the number of steps. -/
theorem unansweredWriteHoldsTheBlock : Obligations.UnansweredWriteHoldsTheBlock := by
  intro s k hp ht
  induction k with
  | zero => rfl
  | succ k ih => rw [steps_succ k (step_of_unanswered hp ht), ih]

/-- Settles O35: every move of every agent commutes with putting bytes in front of the stream. -/
theorem blockNeverReadsTheStream : Obligations.BlockNeverReadsTheStream := by
  intro s t before h
  have hstep := step_prepend before s
  rw [h] at hstep
  exact hstep

/-- Settles O36: what a step adds is nothing, the byte offered, or the host's bytes at the host's turn. -/
theorem streamOnlyGrowsAtItsEnd : Obligations.StreamOnlyGrowsAtItsEnd := by
  intro s t h
  rcases (step_moved h).stream_cases with hsame | ⟨b, ho, hb⟩ | ⟨bs, ht, hbs⟩
  · exact ⟨[], by simp [hsame], .inl rfl, fun _ _ => .inl rfl⟩
  · exact ⟨[b], hb, .inr (.inl ⟨ho, rfl⟩), fun _ _ => .inr (by simp [ho])⟩
  · exact ⟨bs, hbs, .inr (.inr ht), fun hoff hp => absurd ht (not_hostWrite_of_keepsOff hoff hp bs)⟩

end Sys2Proof
end

section
/-! Proofs of the statements of the family 20_memory.md, second part: a host's run, command by command. -/

namespace Sys2Proof.Safety

open Sys2Proof.Machine

/-! ## A job's answers and the bytes they let through -/

theorem Job.emitted_of_bytes {cfg : Config} {j : Job} {bs : List Byte}
    (ho : emission cfg j.issue.cmd j.issue.opnd = .bytes bs) : j.emitted cfg = bs := by
  rw [Job.emitted, ho, bytesOf_bytes]

theorem Job.emitted_of_no_bytes {cfg : Config} {j : Job}
    (ho : ∀ bs, emission cfg j.issue.cmd j.issue.opnd ≠ .bytes bs) : j.emitted cfg = [] := by
  rw [Job.emitted]
  cases he : emission cfg j.issue.cmd j.issue.opnd with
  | illegal => rfl
  | range => rfl
  | bytes bs => exact absurd he (ho bs)

/-- The sink takes a job's whole emission, or it fails a byte of it (R27). -/
theorem Job.answers_cases (cfg : Config) (j : Job) :
    (j.answers cfg = List.replicate (j.emitted cfg).length (.answer .ok) ∧ j.taken cfg = j.emitted cfg) ∨
    ∃ k e, k < (j.emitted cfg).length ∧
      j.answers cfg = List.replicate k (.answer .ok) ++ [.answer (.err e)] ∧
      j.taken cfg = (j.emitted cfg).take k := by
  unfold Job.answers Job.taken
  cases j.failAt with
  | none => exact .inl ⟨rfl, rfl⟩
  | some f =>
    obtain ⟨k, e⟩ := f
    by_cases hk : k < (j.emitted cfg).length
    · exact .inr ⟨k, e, hk, if_pos hk, rfl⟩
    · exact .inl ⟨if_neg hk, List.take_of_length_le (Nat.le_of_not_lt hk)⟩

/-- A command that emits nothing is asked nothing of the sink. -/
theorem Job.answers_of_no_bytes {cfg : Config} {j : Job} (he : j.emitted cfg = []) :
    j.answers cfg = [] ∧ j.taken cfg = [] := by
  rcases j.answers_cases cfg with ⟨ha, ht⟩ | ⟨k, e, hk, -, -⟩
  · exact ⟨by simp [ha, he], by simp [ht, he]⟩
  · simp [he] at hk

end Sys2Proof.Safety

namespace Sys2Proof.Machine

open Sys2Proof.Safety (steps Job)

/-! ## A block at rest -/

/-- A block that can accept a command (R13), with what waits, what is scheduled and what the stream holds. -/
structure State.Rests (s : State) (cfg : Config) (issues : List Issue) (turns : List Turn)
    (stream : List Byte) : Prop where
  cfg_eq : s.cfg = cfg
  rst_low : s.rst = false
  idle : s.phase = .idle
  issues_eq : s.issues = issues
  turns_eq : s.turns = turns
  stream_eq : s.stream = stream

/-- An acceptance that starts no emission leaves an idle block idle (R71, R74). -/
theorem State.accept_phase_of_no_bytes {s : State} {o : Emission} (hp : s.phase = .idle)
    (ho : ∀ bs, o ≠ .bytes bs) : (s.accept o).phase = .idle := by
  cases hr : s.ready with
  | false => rw [State.accept_not_ready hr, hp]
  | true =>
    cases o with
    | illegal => rw [State.accept_illegal hr, State.finish_phase]
    | range => rw [State.accept_range hr, State.finish_phase]
    | bytes bs => exact absurd rfl (ho bs)

/-- R22, R73: a command whose byte `k` the sink fails, from its acceptance to that failure. -/
theorem steps_to_failed_byte {s : State} {q : Issue} {rest : List Issue} {bs : List Byte} {k : Nat}
    {e : BitVec 16} {later : List Turn} (hrst : s.rst = false) (hp : s.phase = .idle) (hi : s.issues = q :: rest)
    (ho : emission s.cfg q.cmd q.opnd = .bytes bs) (hk : k < bs.length)
    (ht : s.turns = .encoder :: (List.replicate k (.answer .ok) ++ .answer (.err e) :: later)) :
    steps (1 + k + 1) s =
      .next (State.byteFailed e (State.emittedUpTo bs k later { s with issues := rest })) := by
  have hstart := step_starts_emission hrst hp hi ho ht
  have htaken := steps_emittedUpTo (s := { s with issues := rest }) (bs := bs) 0 k
    (.answer (.err e) :: later) hrst (by omega)
  have hfail := step_fails_byte (s := State.emittedUpTo bs k (.answer (.err e) :: later) { s with issues := rest })
    hrst rfl (List.getElem?_eq_getElem hk) rfl
  rw [Nat.zero_add] at htaken
  rw [Nat.add_assoc, steps_add 1 (k + 1) (steps_succ 0 hstart), steps_add k 1 htaken, steps_succ 0 hfail]
  rfl

/-! ## One job -/

/-- A command the sink serves, to its end or to its first failed byte, leaves the block at rest (R27, R70). -/
theorem State.Rests.steps_command {s : State} {cfg : Config} {j : Job} {rest : List Issue} {later : List Turn}
    {stream : List Byte} (h : s.Rests cfg (j.issue :: rest) (.encoder :: (j.answers cfg ++ later)) stream) :
    ∃ t, steps (1 + (j.answers cfg).length) s = .next t ∧ t.Rests cfg rest later (stream ++ j.taken cfg) := by
  obtain ⟨rfl, hrst, hp, hi, ht, rfl⟩ := h
  by_cases ho : ∃ bs, emission s.cfg j.issue.cmd j.issue.opnd = .bytes bs
  · obtain ⟨bs, ho⟩ := ho
    have hcases := j.answers_cases s.cfg
    rw [Job.emitted_of_bytes ho] at hcases
    rcases hcases with ⟨ha, htk⟩ | ⟨k, e, hk, ha, htk⟩
    · have hrun := commandRunsToOk s j.issue rest bs later hrst hp hi ho (by rw [ht, ha])
      rw [ha, htk, List.length_replicate]
      exact ⟨_, hrun, ⟨rfl, hrst, rfl, rfl, rfl, rfl⟩⟩
    · have hrun := steps_to_failed_byte (later := later) (e := e) hrst hp hi ho hk (by simp [ht, ha])
      rw [ha, htk, List.length_append, List.length_replicate, List.length_singleton, ← Nat.add_assoc]
      exact ⟨_, hrun, ⟨rfl, hrst, rfl, rfl, rfl, rfl⟩⟩
  · have ho' : ∀ bs, emission s.cfg j.issue.cmd j.issue.opnd ≠ .bytes bs := fun bs hb => ho ⟨bs, hb⟩
    obtain ⟨ha, htk⟩ := Job.answers_of_no_bytes (Job.emitted_of_no_bytes ho')
    have hstep := step_accepts_emission hrst hp hi (.inr (by simp [ht]))
    rw [ha, htk]
    exact ⟨_, steps_succ 0 hstep,
      { cfg_eq := by simp
        rst_low := by simp [hrst]
        idle := State.accept_phase_of_no_bytes hp ho'
        issues_eq := by simp
        turns_eq := by simp [ht, ha]
        stream_eq := by simp }⟩

/-- A host's write between two commands leaves the block at rest (R54). -/
theorem State.Rests.step_hostWrite {s : State} {cfg : Config} {issues : List Issue} {bs stream : List Byte}
    {later : List Turn} (h : s.Rests cfg issues (.hostWrite bs :: later) stream) :
    ∃ t, step s = .next t ∧ t.Rests cfg issues later (stream ++ bs) := by
  obtain ⟨hcfg, hrst, hp, hi, ht, rfl⟩ := h
  exact ⟨_, step_of_cons ht, ⟨hcfg, hrst, hp, hi, rfl, rfl⟩⟩

/-- A whole job: its command, and then its payload. -/
theorem State.Rests.steps_job {s : State} {cfg : Config} {j : Job} {rest : List Issue} {later : List Turn}
    {stream : List Byte} (h : s.Rests cfg (j.issue :: rest) (j.turns cfg ++ later) stream) :
    ∃ t, steps (j.turns cfg).length s = .next t ∧
      t.Rests cfg rest later (stream ++ (j.taken cfg ++ j.payload)) := by
  have hturns : j.turns cfg ++ later = .encoder :: (j.answers cfg ++ .hostWrite j.payload :: later) := by
    simp [Job.turns]
  have hlength : (j.turns cfg).length = 1 + (j.answers cfg).length + 1 := by
    simp [Job.turns, Nat.add_comm]
  rw [hturns] at h
  obtain ⟨u, hu, hrests⟩ := h.steps_command
  obtain ⟨t, htake, hend⟩ := hrests.step_hostWrite
  rw [List.append_assoc] at hend
  exact ⟨t, by rw [hlength, steps_add _ 1 hu, steps_succ 0 htake, steps_zero], hend⟩

/-! ## All jobs -/

/-- The run of all jobs, one after the other. -/
theorem State.Rests.steps_jobs {cfg : Config} (jobs : List Job) {s : State} {stream : List Byte}
    (h : s.Rests cfg (jobs.map Job.issue) (jobs.flatMap (Job.turns cfg)) stream) :
    ∃ t, steps (jobs.flatMap (Job.turns cfg)).length s = .next t ∧
      t.Rests cfg [] [] (stream ++ jobs.flatMap fun j => j.taken cfg ++ j.payload) := by
  induction jobs generalizing s stream with
  | nil => exact ⟨s, rfl, by simpa using h⟩
  | cons j jobs ih =>
    rw [List.map_cons, List.flatMap_cons] at h
    obtain ⟨u, hu, hrests⟩ := h.steps_job
    obtain ⟨t, ht, hend⟩ := ih hrests
    rw [List.append_assoc] at hend
    exact ⟨t, by rw [List.flatMap_cons, List.length_append, steps_add _ _ hu, ht], hend⟩

end Sys2Proof.Machine

namespace Sys2Proof

open Machine

/-- Settles O34, by induction on the list of jobs: each takes the block from rest to rest. -/
theorem streamIsTheServedEmissionsInOrder : Obligations.StreamIsTheServedEmissionsInOrder := by
  intro s jobs hrst hp hi ht
  have hrests : s.Rests s.cfg (jobs.map Safety.Job.issue) (jobs.flatMap (Safety.Job.turns s.cfg)) s.stream :=
    ⟨rfl, hrst, hp, hi, ht, rfl⟩
  obtain ⟨t, hrun, hend⟩ := hrests.steps_jobs
  rw [← ht] at hrun
  exact ⟨t, hrun, hend.stream_eq, by simp [hend.turns_eq], hend.issues_eq, hend.idle⟩

end Sys2Proof
end

section
/-! Proofs of the statements of the family 30_encoding.md, first part: the command byte and the decoder. -/

namespace Sys2Proof

open Machine (toNat_append_eq_add)

/-! ## The fields of a command byte in plain numbers (R30) -/

theorem fieldMT_toNat (c : Byte) : (fieldMT c).toNat = c.toNat / 32 := by
  rw [fieldMT, BitVec.extractLsb'_toNat, Nat.shiftRight_eq_div_pow]
  have := c.isLt
  omega

theorem fieldRSV_toNat (c : Byte) : (fieldRSV c).toNat = c.toNat / 8 % 4 := by
  rw [fieldRSV, BitVec.extractLsb'_toNat, Nat.shiftRight_eq_div_pow]

theorem fieldDOM_toNat (c : Byte) : (fieldDOM c).toNat = c.toNat % 4 := by
  rw [fieldDOM, BitVec.extractLsb'_toNat, Nat.shiftRight_zero]

theorem fieldS_eq_true_iff (c : Byte) : fieldS c = true ↔ c.toNat / 4 % 2 = 1 := by
  rw [fieldS, BitVec.getLsbD, Nat.testBit_eq_decide_div_mod_eq, decide_eq_true_iff]

theorem fieldMT_eq_zero_iff (c : Byte) : fieldMT c = 0#3 ↔ c.toNat / 32 = 0 := by
  rw [← BitVec.toNat_inj, fieldMT_toNat, BitVec.toNat_ofNat]

theorem fieldRSV_eq_zero_iff (c : Byte) : fieldRSV c = 0#2 ↔ c.toNat / 8 % 4 = 0 := by
  rw [← BitVec.toNat_inj, fieldRSV_toNat, BitVec.toNat_ofNat]

/-! ## The domain field -/

/-- The two bits that name a domain (R30). -/
def Dom.code : Dom → BitVec 2
  | .w32 => 1#2
  | .w64 => 2#2
  | .wbig => 3#2

theorem Dom.code_ne_zero (dom : Dom) : dom.code ≠ 0#2 := by
  cases dom <;> decide

theorem domOf_eq_none_iff (d : BitVec 2) : domOf d = none ↔ d = 0#2 := by
  revert d; decide

theorem domOf_eq_some_iff (d : BitVec 2) (dom : Dom) : domOf d = some dom ↔ d = dom.code := by
  cases dom <;> revert d <;> decide

theorem domOf_fieldDOM_eq_none_iff (c : Byte) : domOf (fieldDOM c) = none ↔ c.toNat % 4 = 0 := by
  rw [domOf_eq_none_iff, ← BitVec.toNat_inj, fieldDOM_toNat, BitVec.toNat_ofNat]

/-! ## The command byte of a command -/

/-- The byte of a command, from its fields (R30, R34). -/
def Command.byte : Command → Byte
  | .hdr dom mt => hdrByte mt (0#3 ++ dom.code)
  | .int dom => 0b000001#6 ++ dom.code

theorem Command.byte_hdr_toNat (dom : Dom) (mt : BitVec 3) :
    (Command.hdr dom mt).byte.toNat = 32 * mt.toNat + dom.code.toNat := by
  rw [Command.byte, hdrByte, toNat_append_eq_add, toNat_append_eq_add, BitVec.toNat_ofNat]
  omega

theorem Command.byte_int_toNat (dom : Dom) : (Command.int dom).byte.toNat = 4 + dom.code.toNat := by
  cases dom <;> rfl

theorem Command.eq_byte_hdr_of_bits {c : Byte} {dom : Dom} (hdom : c.toNat % 4 = dom.code.toNat)
    (hrsv : c.toNat / 8 % 4 = 0) (hs : c.toNat / 4 % 2 ≠ 1) : c = (Command.hdr dom (fieldMT c)).byte := by
  rw [← BitVec.toNat_inj, Command.byte_hdr_toNat, fieldMT_toNat]
  omega

theorem Command.eq_byte_int_of_bits {c : Byte} {dom : Dom} (hdom : c.toNat % 4 = dom.code.toNat)
    (hrsv : c.toNat / 8 % 4 = 0) (hs : c.toNat / 4 % 2 = 1) (hmt : c.toNat / 32 = 0) :
    c = (Command.int dom).byte := by
  rw [← BitVec.toNat_inj, Command.byte_int_toNat]
  omega

/-! ## What the decoder answers (R37) -/

/-- The decoder's answers to the 256 bytes, each with the tests of R37 that lead to it. -/
theorem decodeByte_cases (c : Byte) :
    (c.toNat % 4 = 0 ∧ decodeByte c = .error .noDomain) ∨
    (c.toNat % 4 ≠ 0 ∧ c.toNat / 8 % 4 ≠ 0 ∧ decodeByte c = .error .reservedBits) ∨
    (c.toNat % 4 ≠ 0 ∧ c.toNat / 8 % 4 = 0 ∧ c.toNat / 4 % 2 = 1 ∧ c.toNat / 32 ≠ 0 ∧
      decodeByte c = .error .signedWithMajorType) ∨
    ∃ k, c = k.byte ∧ c.toNat % 4 ≠ 0 ∧ c.toNat / 8 % 4 = 0 ∧
      (c.toNat / 4 % 2 ≠ 1 ∨ c.toNat / 32 = 0) ∧ decodeByte c = .ok k := by
  unfold decodeByte
  cases hd : domOf (fieldDOM c) with
  | none => exact .inl ⟨(domOf_fieldDOM_eq_none_iff c).1 hd, rfl⟩
  | some dom =>
    have hcode : c.toNat % 4 = dom.code.toNat := by
      rw [← fieldDOM_toNat, (domOf_eq_some_iff _ _).1 hd]
    have hdom : c.toNat % 4 ≠ 0 := fun h => by simp [(domOf_fieldDOM_eq_none_iff c).2 h] at hd
    by_cases hrsv : fieldRSV c = 0#2
    · have hrsv' := (fieldRSV_eq_zero_iff c).1 hrsv
      cases hs : fieldS c with
      | false =>
        have hs' : c.toNat / 4 % 2 ≠ 1 := fun h => by simp [(fieldS_eq_true_iff c).2 h] at hs
        have hbyte := Command.eq_byte_hdr_of_bits hcode hrsv' hs'
        exact .inr (.inr (.inr ⟨_, hbyte, hdom, hrsv', .inl hs', by simp [hrsv]⟩))
      | true =>
        have hs' := (fieldS_eq_true_iff c).1 hs
        by_cases hzero : fieldMT c = 0#3
        · have hzero' := (fieldMT_eq_zero_iff c).1 hzero
          have hbyte := Command.eq_byte_int_of_bits hcode hrsv' hs' hzero'
          exact .inr (.inr (.inr ⟨_, hbyte, hdom, hrsv', .inr hzero', by simp [hrsv, hzero]⟩))
        · have hzero' := mt (fieldMT_eq_zero_iff c).2 hzero
          exact .inr (.inr (.inl ⟨hdom, hrsv', hs', hzero', by simp [hrsv, hzero]⟩))
    · exact .inr (.inl ⟨hdom, mt (fieldRSV_eq_zero_iff c).2 hrsv, by simp [hrsv]⟩)

theorem decodeByte_byte (k : Command) : decodeByte k.byte = .ok k := by
  cases k with
  | hdr dom mt => cases dom <;> revert mt <;> decide
  | int dom => cases dom <;> rfl

/-- R34: no byte is in two rows of the opcode map. -/
theorem decodeByte_eq_ok_iff (c : Byte) (k : Command) : decodeByte c = .ok k ↔ c = k.byte := by
  refine ⟨fun h => ?_, fun h => h ▸ decodeByte_byte k⟩
  rcases decodeByte_cases c with ⟨-, he⟩ | ⟨-, -, he⟩ | ⟨-, -, -, -, he⟩ | ⟨k', hbyte, -, -, -, hk⟩
  · simp [he] at h
  · simp [he] at h
  · simp [he] at h
  · obtain rfl : k' = k := by simpa [hk] using h
    exact hbyte

/-- R35: the reserved bytes in plain numbers. -/
theorem decodeByte_eq_error_iff (c : Byte) :
    (∃ e, decodeByte c = .error e) ↔
      c.toNat % 4 = 0 ∨ c.toNat / 8 % 4 ≠ 0 ∨ (c.toNat / 4 % 2 = 1 ∧ c.toNat / 32 ≠ 0) := by
  rcases decodeByte_cases c with ⟨h, he⟩ | ⟨-, h, he⟩ | ⟨-, -, hs, h, he⟩ | ⟨k, -, hdom, hrsv, hs, hk⟩
  · simp [h, he]
  · simp [h, he]
  · simp [h, hs, he]
  · simp only [hk, reduceCtorEq, exists_false, false_iff]
    omega

theorem decode_eq_error_iff (c : Byte) (x : Nat) (e : Reserved) :
    decode c x = .error e ↔ decodeByte c = .error e := by
  unfold decode
  cases decodeByte c <;> simp

theorem decode_eq_ok_iff (c : Byte) (x : Nat) (i : Instr) :
    decode c x = .ok i ↔ ∃ k : Command, c = k.byte ∧ k.withOperand x = i := by
  simp only [← decodeByte_eq_ok_iff]
  unfold decode
  cases decodeByte c <;> simp

end Sys2Proof
end

section
/-! Proofs of the statements of the family 30_encoding.md, second part: the instructions and their words. -/

namespace Sys2Proof

/-! ## The command of an instruction -/

/-- The command an instruction is presented as: a pseudo-command is a 64-bit header command (R38). -/
def Instr.command : Instr → Command
  | .hdr32 mt _ => .hdr .w32 mt
  | .hdr64 mt _ => .hdr .w64 mt
  | .hdrbig mt _ => .hdr .wbig mt
  | .int32 _ => .int .w32
  | .int64 _ => .int .w64
  | .intbig _ => .int .wbig
  | .uint _ => .hdr .w64 0
  | .bstr _ => .hdr .w64 2
  | .tstr _ => .hdr .w64 3
  | .array _ => .hdr .w64 4
  | .map _ => .hdr .w64 5
  | .tag _ => .hdr .w64 6
  | .simple _ => .hdr .w64 7

theorem encode_eq (i : Instr) : encode i = (i.command.byte, i.operand) := by
  cases i <;> rfl

theorem Instr.expand_eq (i : Instr) : i.expand = i.command.withOperand i.operand := by
  cases i <;> rfl

theorem Instr.expand_of_isCommand {i : Instr} (h : i.isCommand = true) : i.expand = i := by
  cases i with
  | hdr32 | hdr64 | hdrbig | int32 | int64 | intbig => rfl
  | uint | bstr | tstr | array | map | tag | simple => cases h

@[simp] theorem Command.command_withOperand (k : Command) (x : Nat) : (k.withOperand x).command = k := by
  cases k with
  | hdr dom mt => cases dom <;> rfl
  | int dom => cases dom <;> rfl

@[simp] theorem Command.operand_withOperand (k : Command) (x : Nat) : (k.withOperand x).operand = x := by
  cases k with
  | hdr dom mt => cases dom <;> rfl
  | int dom => cases dom <;> rfl

@[simp] theorem Command.isCommand_withOperand (k : Command) (x : Nat) : (k.withOperand x).isCommand = true := by
  cases k with
  | hdr dom mt => cases dom <;> rfl
  | int dom => cases dom <;> rfl

theorem decode_encode (i : Instr) : decode (encode i).1 (encode i).2 = .ok i.expand := by
  rw [encode_eq, decode_eq_ok_iff]
  exact ⟨i.command, rfl, i.expand_eq.symm⟩

/-! ## A transaction as one word (log 13) -/

theorem wordCmd_of_fields (n : Nat) (c : Byte) (x : Nat) : wordCmd (8 + n) (c.toNat + 2 ^ 8 * x) = c := by
  rw [wordCmd, ← BitVec.toNat_inj, BitVec.toNat_ofNat, Nat.mod_mod_of_dvd _ (pow_dvd_pow 2 (Nat.le_add_right 8 n)),
    Nat.add_mul_mod_self_left, Nat.mod_eq_of_lt c.isLt]

theorem wordOpnd_of_fields {n : Nat} (c : Byte) {x : Nat} (h : x < 2 ^ n) :
    wordOpnd (8 + n) (c.toNat + 2 ^ 8 * x) = x := by
  have hdiv : (c.toNat + 2 ^ 8 * x) / 2 ^ 8 = x := by
    have := c.isLt
    omega
  rw [wordOpnd, pow_add, Nat.mod_mul_right_div_self, hdiv, Nat.mod_eq_of_lt h]

/-- Every operand of an instruction that can be presented fits the port (R30, R53). -/
theorem Instr.operand_lt_of_wellFormed {cfg : Config} {i : Instr} (h : i.wellFormed cfg = true) :
    i.operand < 2 ^ cfg.bigw := by
  have hbig : 2 ^ 64 ≤ 2 ^ cfg.bigw := Nat.pow_le_pow_right (by decide) (by have := cfg.bigw_ge; omega)
  cases i with
  | hdr32 | hdr64 | hdrbig | int32 | int64 | intbig => exact of_decide_eq_true h
  | uint | bstr | tstr | array | map | tag | simple => exact Nat.lt_of_lt_of_le (of_decide_eq_true h) hbig

theorem decodeTableWord_encodeWord {n : Nat} {i : Instr} (h : i.operand < 2 ^ n) :
    decodeTableWord (8 + n) (encodeWord i) = some i.expand := by
  have hopnd : (encode i).2 = i.operand := by rw [encode_eq]
  rw [decodeTableWord, encodeWord, wordCmd_of_fields, wordOpnd_of_fields _ (by rwa [hopnd]), decode_encode]

/-- Settles O2: an operand that can be presented fits the port, so the word keeps byte and operand apart. -/
theorem decodeEncodeRoundTrip : Obligations.DecodeEncodeRoundTrip :=
  fun _ _ h => ⟨decodeTableWord_encodeWord (Instr.operand_lt_of_wellFormed h), Instr.expand_of_isCommand⟩

/-- Settles O3: the decoder answers a command only to that command's byte. -/
theorem decodedTransactionIsItsEncoding : Obligations.DecodedTransactionIsItsEncoding := by
  intro c x i h
  obtain ⟨k, rfl, rfl⟩ := (decode_eq_ok_iff c x i).1 h
  exact ⟨by rw [encode_eq, Command.command_withOperand, Command.operand_withOperand], k.isCommand_withOperand x⟩

/-- Settles O5: the decoder's answers exclude each other, and so do the conditions they rest on. -/
theorem reservedBytesByName : Obligations.ReservedBytesByName := by
  intro c x
  simp only [decode_eq_error_iff]
  rcases decodeByte_cases c with ⟨h, he⟩ | ⟨hdom, h, he⟩ | ⟨hdom, hrsv, hs, h, he⟩ | ⟨k, -, hdom, hrsv, hs, hk⟩
  · simp [h, he]
  · simp [hdom, h, he]
  · simp [hdom, hrsv, hs, h, he]
  · simp only [hk, reduceCtorEq, false_iff]
    omega

/-- Settles O1, word by word. -/
theorem sampleWordsDecode : Obligations.SampleWordsDecode := by
  unfold Obligations.SampleWordsDecode
  decide

/-- Settles O4, by running the decoder on the 256 bytes. -/
theorem twentySevenCommandBytes : Obligations.TwentySevenCommandBytes := by
  unfold Obligations.TwentySevenCommandBytes
  decide

end Sys2Proof
end

section
/-! Proofs of the statements of the family 30_encoding.md, third part: acceptance, the host's lines, the assembler and
the disassembler. -/

namespace Sys2Proof

/-! ## The width of a view (R32) -/

theorem Dom.width_pos (cfg : Config) (dom : Dom) : 0 < dom.width cfg := by
  have := cfg.bigw_ge
  cases dom <;> simp only [Dom.width] <;> omega

theorem Dom.width_le_bigw (cfg : Config) (dom : Dom) : dom.width cfg ≤ cfg.bigw := by
  have := cfg.bigw_ge
  cases dom <;> simp only [Dom.width] <;> omega

end Sys2Proof

namespace Sys2Proof.Machine

/-! ## A reserved byte, and a wait line -/

theorem emission_eq_illegal_iff (cfg : Config) (c : Byte) (x : Nat) :
    emission cfg c x = .illegal ↔ ∃ e, decodeByte c = .error e := by
  unfold emission
  cases decodeByte c with
  | error e => simp
  | ok k => cases k <;> simp [signedEmission, headerEmission_ne_illegal]

theorem hostLine_wait (s : State) :
    hostLine .wait s = if s.issues = [] ∧ s.phase = .idle then .done s else .blocked := by
  unfold hostLine State.busy
  cases s.issues with
  | nil => cases s.phase <;> simp
  | cons q rest => simp

/-! ## Expansions -/

theorem outcomeOf_expand (cfg : Config) (i : Instr) : outcomeOf cfg i.expand = outcomeOf cfg i := by
  cases i <;> rfl

theorem exec_expand (i : Instr) (s : State) : exec i.expand s = exec i s := by
  rw [exec_eq_accept, exec_eq_accept, outcomeOf_expand]

/-! ## The operand views -/

theorem uview_of_lt {cfg : Config} {dom : Dom} {x : Nat} (h : x < 2 ^ dom.width cfg) : uview cfg dom x = x := by
  rw [uview_eq, Nat.mod_eq_of_lt h]

theorem uview_lt (cfg : Config) (dom : Dom) (x : Nat) : uview cfg dom x < 2 ^ dom.width cfg :=
  (opndField cfg dom x).isLt

theorem sview_limits (cfg : Config) (dom : Dom) (x : Nat) :
    -2 ^ (dom.width cfg - 1) ≤ sview cfg dom x ∧ sview cfg dom x < 2 ^ (dom.width cfg - 1) :=
  ⟨BitVec.le_toInt _, BitVec.toInt_lt⟩

/-- The operand a signed number is written as: `BIGW`-bit two's complement (R38). -/
def signedOperand (cfg : Config) (n : Int) : Nat := (n % 2 ^ cfg.bigw).toNat

theorem signedOperand_lt (cfg : Config) (n : Int) : signedOperand cfg n < 2 ^ cfg.bigw := by
  have hlt : n % 2 ^ cfg.bigw < ((2 ^ cfg.bigw : Nat) : Int) := by
    rw [Nat.cast_pow, Nat.cast_ofNat]
    exact Int.emod_lt_of_pos n (by positivity)
  exact (Int.toNat_lt' (by positivity)).2 hlt

/-- A view is no wider than the port, so it sees the low bits of the number itself. -/
theorem opndField_signedOperand (cfg : Config) (dom : Dom) (n : Int) :
    opndField cfg dom (signedOperand cfg n) = BitVec.ofInt (dom.width cfg) n := by
  have hnonneg : 0 ≤ n % 2 ^ cfg.bigw := Int.emod_nonneg n (by positivity)
  have hdvd : ((2 ^ dom.width cfg : Nat) : Int) ∣ 2 ^ cfg.bigw := by
    rw [Nat.cast_pow, Nat.cast_ofNat]
    exact pow_dvd_pow 2 (dom.width_le_bigw cfg)
  rw [opndField, signedOperand, ← BitVec.ofInt_natCast, Int.toNat_of_nonneg hnonneg, ← BitVec.toNat_inj,
    BitVec.toNat_ofInt, BitVec.toNat_ofInt, Int.emod_emod_of_dvd n hdvd]

/-- A signed number inside the limits of its domain is read back from its operand (R38). -/
theorem sview_signedOperand {cfg : Config} {dom : Dom} {n : Int} (hlo : -2 ^ (dom.width cfg - 1) ≤ n)
    (hhi : n < 2 ^ (dom.width cfg - 1)) : sview cfg dom (signedOperand cfg n) = n := by
  rw [sview, opndField_signedOperand]
  exact BitVec.toInt_ofInt_eq_self (dom.width_pos cfg) hlo hhi

/-! ## The real commands of a spelling -/

theorem hdrInstr_eq (dom : Dom) (mt : BitVec 3) (x : Nat) : hdrInstr dom mt x = (Command.hdr dom mt).withOperand x := by
  cases dom <;> rfl

theorem intInstr_eq (dom : Dom) (x : Nat) : intInstr dom x = (Command.int dom).withOperand x := by
  cases dom <;> rfl

theorem exec_hdrInstr (dom : Dom) (mt : BitVec 3) (x : Nat) (s : State) :
    exec (hdrInstr dom mt x) s = .next (s.accept (headerEmission mt (uview s.cfg dom x))) := by
  cases dom <;> rfl

theorem exec_intInstr (dom : Dom) (x : Nat) (s : State) :
    exec (intInstr dom x) s = .next (s.accept (signedEmission (sview s.cfg dom x) s.cfg.negMode)) := by
  cases dom <;> rfl

/-- The transaction of a real command decodes to it. -/
theorem decode_issueOf_withOperand (k : Command) (x : Nat) :
    decode (issueOf (k.withOperand x)).cmd (issueOf (k.withOperand x)).opnd = .ok (k.withOperand x) := by
  rw [issueOf, decode_encode, Instr.expand_of_isCommand (k.isCommand_withOperand x)]

theorem issueOf_opnd (i : Instr) : (issueOf i).opnd = i.operand := by
  rw [issueOf, encode_eq]

/-! ## What the assembler takes, and what it writes (R38) -/

theorem assemble_eq_ok_iff (cfg : Config) (l : AsmLine) (q : Issue) :
    assemble cfg l = .ok q ↔ ∃ i, l.instr cfg = .ok i ∧ issueOf i = q := by
  unfold assemble
  cases l.instr cfg <;> simp

theorem assemble_hdr_eq_ok_iff (cfg : Config) (dom : Dom) (mt v : Nat) (q : Issue) :
    assemble cfg (.hdr dom mt v) = .ok q ↔
      (mt ≤ 7 ∧ v < 2 ^ dom.width cfg) ∧ issueOf (hdrInstr dom (BitVec.ofNat 3 mt) v) = q := by
  rw [assemble_eq_ok_iff, AsmLine.instr]
  by_cases hmt : 7 < mt
  · rw [if_pos hmt]
    simp [Nat.not_le.2 hmt]
  · by_cases hv : 2 ^ dom.width cfg ≤ v
    · rw [if_neg hmt, if_pos hv]
      simp [Nat.not_lt.2 hv]
    · rw [if_neg hmt, if_neg hv]
      simp [Nat.not_lt.1 hmt, Nat.not_le.1 hv]

theorem assemble_int_eq_ok_iff (cfg : Config) (dom : Dom) (n : Int) (q : Issue) :
    assemble cfg (.int dom n) = .ok q ↔
      (-2 ^ (dom.width cfg - 1) ≤ n ∧ n < 2 ^ (dom.width cfg - 1)) ∧
        issueOf (intInstr dom (signedOperand cfg n)) = q := by
  have hlimits : n < -2 ^ (dom.width cfg - 1) ∨ 2 ^ (dom.width cfg - 1) ≤ n ↔
      ¬(-2 ^ (dom.width cfg - 1) ≤ n ∧ n < 2 ^ (dom.width cfg - 1)) := by
    rw [Decidable.not_and_iff_or_not, Int.not_le, Int.not_lt]
  rw [assemble_eq_ok_iff, AsmLine.instr]
  by_cases h : -2 ^ (dom.width cfg - 1) ≤ n ∧ n < 2 ^ (dom.width cfg - 1)
  · rw [if_neg fun ho => hlimits.1 ho h]
    simp only [h, Except.ok.injEq, exists_eq_left', and_self, true_and, signedOperand]
  · rw [if_pos (hlimits.2 h)]
    simp only [h, reduceCtorEq, false_and, exists_false]

theorem assemble_kind_eq_ok_iff (cfg : Config) (k : Kind) (v : Nat) (q : Issue) :
    assemble cfg (.kind k v) = .ok q ↔ v < 2 ^ 64 ∧ issueOf (k.instr v) = q := by
  rw [assemble_eq_ok_iff, AsmLine.instr]
  by_cases hv : 2 ^ 64 ≤ v
  · rw [if_pos hv]
    simp only [Nat.not_lt.2 hv, reduceCtorEq, false_and, exists_false]
  · rw [if_neg hv]
    simp only [Nat.not_le.1 hv, Except.ok.injEq, exists_eq_left', true_and]

/-! ## What the disassembler prints (R38) -/

/-- The line of a command with the value its view gives. -/
def commandLine (cfg : Config) (x : Nat) : Command → AsmLine
  | .hdr dom mt => .hdr dom mt.toNat (uview cfg dom x)
  | .int dom => .int dom (sview cfg dom x)

theorem disassemble_eq (cfg : Config) (i : Instr) : disassemble cfg i = commandLine cfg i.operand i.command := by
  cases i <;> rfl

/-- A command's line assembles to a command that does the same: its view of the new operand is its view of the old. -/
theorem assemble_commandLine (cfg : Config) (x : Nat) (k : Command) :
    ∃ y, assemble cfg (commandLine cfg x k) = .ok (issueOf (k.withOperand y)) ∧
      ∀ s : State, s.cfg = cfg → exec (k.withOperand y) s = exec (k.withOperand x) s := by
  cases k with
  | hdr dom mt =>
    refine ⟨uview cfg dom x, (assemble_hdr_eq_ok_iff ..).2 ⟨⟨by omega, uview_lt cfg dom x⟩, ?_⟩, ?_⟩
    · rw [BitVec.ofNat_toNat, BitVec.setWidth_eq, hdrInstr_eq]
    · rintro s rfl
      rw [← hdrInstr_eq, ← hdrInstr_eq, exec_hdrInstr, exec_hdrInstr, uview_of_lt (uview_lt s.cfg dom x)]
  | int dom =>
    obtain ⟨hlo, hhi⟩ := sview_limits cfg dom x
    refine ⟨signedOperand cfg (sview cfg dom x), (assemble_int_eq_ok_iff ..).2 ⟨⟨hlo, hhi⟩, ?_⟩, ?_⟩
    · rw [intInstr_eq]
    · rintro s rfl
      rw [← intInstr_eq, ← intInstr_eq, exec_intInstr, exec_intInstr, sview_signedOperand hlo hhi]

end Sys2Proof.Machine

namespace Sys2Proof

open Machine

/-- Settles O6: the three spellings, each from what the assembler takes and writes. -/
theorem assembledOperandIsTheNumberWritten : Obligations.AssembledOperandIsTheNumberWritten := by
  refine ⟨fun cfg dom mt v => ?_, fun cfg dom n => ?_, fun cfg k v => ?_⟩
  · simp only [assemble_hdr_eq_ok_iff, exists_and_left, exists_eq', and_true, true_and]
    rintro q ⟨⟨-, hv⟩, rfl⟩
    rw [hdrInstr_eq, decode_issueOf_withOperand, issueOf_opnd, Command.operand_withOperand, hdrInstr_eq]
    exact ⟨rfl, uview_of_lt hv⟩
  · simp only [assemble_int_eq_ok_iff, exists_and_left, exists_eq', and_true, true_and]
    rintro q ⟨⟨hlo, hhi⟩, rfl⟩
    rw [intInstr_eq, decode_issueOf_withOperand, issueOf_opnd, Command.operand_withOperand, intInstr_eq]
    exact ⟨rfl, sview_signedOperand hlo hhi, signedOperand_lt cfg n⟩
  · simp only [assemble_kind_eq_ok_iff, exists_and_left, exists_eq', and_true, true_and]
    rintro q ⟨-, rfl⟩
    exact decode_encode (k.instr v)

/-- Settles O7: the line of an instruction is its command's line, and its command does what the instruction does. -/
theorem disassemblyKeepsTheMeaning : Obligations.DisassemblyKeepsTheMeaning := by
  intro cfg i
  obtain ⟨y, hq, hexec⟩ := assemble_commandLine cfg i.operand i.command
  rw [← disassemble_eq] at hq
  refine ⟨_, _, hq, decode_issueOf_withOperand _ y, fun s hs => ?_⟩
  rw [hexec s hs, ← i.expand_eq, exec_expand]

/-- Settles O28: a reserved byte's outcome is `illegal`, and the acceptance of that is O27's. -/
theorem reservedByteEndsIllegal : Obligations.ReservedByteEndsIllegal := by
  intro s q rest hrst hp hi ht hreserved
  have hillegal : emission s.cfg q.cmd q.opnd = .illegal :=
    (emission_eq_illegal_iff ..).2 ((decodeByte_eq_error_iff q.cmd).2 hreserved)
  exact (issueAndCapture.1 s q rest hrst hp hi ht).1 hillegal

/-- Settles O21: an instruction and its expansion have the same outcome to accept. -/
theorem kindIsItsExpansion : Obligations.KindIsItsExpansion :=
  fun i s => (exec_expand i s).symm

/-- Settles O48: a wait line has two answers, told apart by whether an issue waits or the block emits. -/
theorem waitLinePassesWhenIdle : Obligations.WaitLinePassesWhenIdle := by
  intro s
  rw [hostLine_wait]
  by_cases h : s.issues = [] ∧ s.phase = .idle
  · rw [if_pos h]; simp [h]
  · rw [if_neg h]; simp [h]

end Sys2Proof
end

section
/-! Proofs of the statements of the family 40_header.md, first part: the classifier, the packer, the serializer and a
reader of headers. -/

namespace Sys2Proof.Machine

open Sys2Proof.Safety (tableBytes beValue additional readHeader)

/-! ## The classifier (R40) -/

/-- Above the immediate band the additional bytes hold the value, and fewer of them do not (R40, minimality). -/
theorem classify_minimal {v : Nat} {info : BitVec 5} {n : Nat} (h : classify v = some (info, n)) (hn : n ≠ 0) :
    v < 2 ^ (8 * n) ∧ 24 ≤ v ∧ ∀ m ∈ [1, 2, 4, 8], m < n → 2 ^ (8 * m) ≤ v := by
  rcases classify_cases h with
    ⟨-, -, rfl⟩ | ⟨hlo, hhi, -, rfl⟩ | ⟨hlo, hhi, -, rfl⟩ | ⟨hlo, hhi, -, rfl⟩ | ⟨hlo, hhi, -, rfl⟩
  · exact absurd rfl hn
  all_goals
    refine ⟨hhi, by omega, ?_⟩
    simp only [List.forall_mem_cons, List.not_mem_nil, false_implies, implies_true, and_true]
    omega

/-- No additional bytes: the info is the value itself (R40). -/
theorem classify_immediate {v : Nat} {info : BitVec 5} (h : classify v = some (info, 0)) :
    v < 24 ∧ info.toNat = v := by
  rcases classify_cases h with ⟨hlt, rfl, -⟩ | ⟨-, -, -, hn⟩ | ⟨-, -, -, hn⟩ | ⟨-, -, -, hn⟩ | ⟨-, -, -, hn⟩
  · exact ⟨hlt, by rw [BitVec.toNat_ofNat]; omega⟩
  all_goals cases hn

/-- R41: the info values 28 to 31 are never given. -/
theorem classify_info_le {v : Nat} {info : BitVec 5} {n : Nat} (h : classify v = some (info, n)) :
    info.toNat ≤ 27 := by
  rcases classify_cases h with ⟨hlt, rfl, -⟩ | ⟨-, -, rfl, -⟩ | ⟨-, -, rfl, -⟩ | ⟨-, -, rfl, -⟩ | ⟨-, -, rfl, -⟩
  · rw [BitVec.toNat_ofNat]; omega
  all_goals decide

/-- The reader's half of the table agrees with the classifier's (R40). -/
theorem additional_of_classify {v : Nat} {info : BitVec 5} {n : Nat} (h : classify v = some (info, n)) :
    additional info.toNat = some n := by
  rcases classify_cases h with
    ⟨hlt, -, rfl⟩ | ⟨-, -, rfl, rfl⟩ | ⟨-, -, rfl, rfl⟩ | ⟨-, -, rfl, rfl⟩ | ⟨-, -, rfl, rfl⟩
  · rw [(classify_immediate h).2, additional, if_pos hlt]
  all_goals rfl

/-! ## The packer (R41) -/

theorem pack_eq_append (mt : BitVec 3) (info : BitVec 5) : pack mt info = mt ++ info := by
  revert mt info; decide

theorem pack_toNat (mt : BitVec 3) (info : BitVec 5) : (pack mt info).toNat = 32 * mt.toNat + info.toNat := by
  rw [pack_eq_append, toNat_append_eq_add]; norm_num

@[simp] theorem pack_major (mt : BitVec 3) (info : BitVec 5) : (pack mt info).extractLsb' 5 3 = mt := by
  rw [pack_eq_append, BitVec.extractLsb'_append_eq_left]

@[simp] theorem pack_info (mt : BitVec 3) (info : BitVec 5) : (pack mt info).extractLsb' 0 5 = info := by
  rw [pack_eq_append, BitVec.extractLsb'_append_eq_right]

/-! ## The serializer (R7, R24) -/

/-- The last byte is the low one, and the bytes before it are those of the rest. -/
theorem bytesBe_succ (v n : Nat) : bytesBe v (n + 1) = bytesBe (v / 2 ^ 8) n ++ [BitVec.ofNat 8 v] := by
  have hbyte : ∀ i ∈ List.range n, v / 2 ^ (8 * (n - i)) = v / 2 ^ 8 / 2 ^ (8 * (n - 1 - i)) := by
    intro i hi
    have hexp : 8 * (n - i) = 8 + 8 * (n - 1 - i) := by
      have := List.mem_range.1 hi
      omega
    rw [hexp, pow_add, ← Nat.div_div_eq_div_mul]
  rw [bytesBe, List.range_succ, List.map_append, bytesBe]
  congr 1
  · exact List.map_congr_left fun i hi => by rw [Nat.add_sub_cancel, hbyte i hi]
  · simp

theorem beValue_concat (bs : List Byte) (b : Byte) : beValue (bs ++ [b]) = beValue bs * 2 ^ 8 + b.toNat := by
  simp [beValue]

/-- Read most significant byte first, `n` bytes spell the value's low `8 * n` bits (R24). -/
theorem beValue_bytesBe (v n : Nat) : beValue (bytesBe v n) = v % 2 ^ (8 * n) := by
  induction n generalizing v with
  | zero => simp [bytesBe, beValue, Nat.mod_one]
  | succ n ih =>
    have hexp : 8 * (n + 1) = 8 + 8 * n := by omega
    rw [bytesBe_succ, beValue_concat, ih, BitVec.toNat_ofNat, hexp, pow_add, Nat.mod_mul]
    ring

/-- Above the immediate band the additional bytes spell the value (R42). -/
theorem beValue_bytesBe_of_classify {v : Nat} {info : BitVec 5} {n : Nat} (h : classify v = some (info, n))
    (hn : n ≠ 0) : beValue (bytesBe v n) = v := by
  rw [beValue_bytesBe, Nat.mod_eq_of_lt (classify_minimal h hn).1]

/-! ## The header (R42) -/

/-- R42: the octet and the additional bytes are the row of the table in plain numbers; the row writes the top byte
without its `% 256`, which the band allows. -/
theorem tableBytes_of_header {mt : BitVec 3} {v : Nat} {bs : List Byte} (h : header mt v = some bs) :
    tableBytes mt.toNat v = some (bs.map BitVec.toNat) := by
  obtain ⟨info, n, hc, rfl⟩ := header_cases h
  rw [List.map_cons, pack_toNat, tableBytes]
  rcases classify_cases hc with
    ⟨hhi, -, rfl⟩ | ⟨hlo, hhi, rfl, rfl⟩ | ⟨hlo, hhi, rfl, rfl⟩ | ⟨hlo, hhi, rfl, rfl⟩ | ⟨hlo, hhi, rfl, rfl⟩
  · rw [if_pos (by omega), (classify_immediate hc).2]; rfl
  · rw [if_neg (by omega), if_pos (by omega)]
    have htop : v % 2 ^ 8 = v := Nat.mod_eq_of_lt (by omega)
    simpa [bytesBe, List.range_succ] using htop.symm
  · rw [if_neg (by omega), if_neg (by omega), if_pos (by omega)]
    have htop : v / 2 ^ 8 % 2 ^ 8 = v / 2 ^ 8 := Nat.mod_eq_of_lt (by omega)
    simpa [bytesBe, List.range_succ] using htop.symm
  · rw [if_neg (by omega), if_neg (by omega), if_neg (by omega), if_pos (by omega)]
    have htop : v / 2 ^ 24 % 2 ^ 8 = v / 2 ^ 24 := Nat.mod_eq_of_lt (by omega)
    simpa [bytesBe, List.range_succ] using htop.symm
  · rw [if_neg (by omega), if_neg (by omega), if_neg (by omega), if_neg (by omega), if_pos (by omega)]
    have htop : v / 2 ^ 56 % 2 ^ 8 = v / 2 ^ 56 := Nat.mod_eq_of_lt (by omega)
    simpa [bytesBe, List.range_succ] using htop.symm

theorem header_length_mem {mt : BitVec 3} {v : Nat} {bs : List Byte} (h : header mt v = some bs) :
    bs.length ∈ [1, 2, 3, 5, 9] := by
  obtain ⟨info, n, hc, rfl⟩ := header_cases h
  rw [List.length_cons, bytesBe_length]
  rcases classify_cases hc with ⟨-, -, rfl⟩ | ⟨-, -, -, rfl⟩ | ⟨-, -, -, rfl⟩ | ⟨-, -, -, rfl⟩ | ⟨-, -, -, rfl⟩
  all_goals decide

/-- From 24 on the bytes after the octet spell the magnitude. -/
theorem beValue_tail_of_header {mt : BitVec 3} {v : Nat} {bs : List Byte} (h : header mt v = some bs)
    (hv : 24 ≤ v) : beValue bs.tail = v := by
  obtain ⟨info, n, hc, rfl⟩ := header_cases h
  refine beValue_bytesBe_of_classify hc ?_
  rintro rfl
  exact absurd (classify_immediate hc).1 (Nat.not_lt.2 hv)

/-! ## The reader (log 20) -/

/-- An octet that announces no bytes holds the magnitude itself. -/
theorem readHeader_pack_immediate {mt : BitVec 3} {info : BitVec 5} (h : additional info.toNat = some 0)
    (rest : List Byte) : readHeader (pack mt info :: rest) = some (mt, info.toNat, rest) := by
  simp [readHeader, h]

/-- An octet that announces `n` bytes has the magnitude in the next `n`. -/
theorem readHeader_pack_following {mt : BitVec 3} {info : BitVec 5} {bs : List Byte}
    (h : additional info.toNat = some bs.length) (hn : bs.length ≠ 0) (rest : List Byte) :
    readHeader (pack mt info :: (bs ++ rest)) = some (mt, beValue bs, rest) := by
  simp [readHeader, h]

end Sys2Proof.Machine

namespace Sys2Proof

open Machine

/-- Settles O11: the octet tells the reader how many bytes follow, and with none it holds the magnitude itself, else
those bytes spell it. -/
theorem readerRecoversHeader : Obligations.ReaderRecoversHeader := by
  intro mt v bs rest h
  obtain ⟨info, n, hc, rfl⟩ := header_cases h
  have hadd := additional_of_classify hc
  by_cases hn : n = 0
  · subst hn
    rw [← (classify_immediate hc).2]
    exact readHeader_pack_immediate hadd rest
  · have hlen := bytesBe_length v n
    rw [List.cons_append, readHeader_pack_following (by rw [hlen, hadd]) (by rwa [hlen]),
      beValue_bytesBe_of_classify hc hn]

/-- Settles O8: the six bands by the tests of the definition, and minimality band by band. -/
theorem classifierFollowsTheTable : Obligations.ClassifierFollowsTheTable := by
  refine ⟨fun v h => ?_, fun v hlo hhi => ?_, fun v hlo hhi => ?_, fun v hlo hhi => ?_, fun v hlo hhi => ?_,
    fun v h => (classify_eq_none_iff v).2 h, fun v info n => classify_minimal⟩
  · rw [classify, if_pos h]
  · rw [classify, if_neg (by omega), if_pos (by omega)]
  · rw [classify, if_neg (by omega), if_neg (by omega), if_pos (by omega)]
  · rw [classify, if_neg (by omega), if_neg (by omega), if_neg (by omega), if_pos (by omega)]
  · rw [classify, if_neg (by omega), if_neg (by omega), if_neg (by omega), if_neg (by omega), if_pos (by omega)]

/-- Settles O10: the header's bytes are the table's row; the table has no row from 2^64 on. -/
theorem headerBytesFollowTheTable : Obligations.HeaderBytesFollowTheTable := by
  refine fun mt v => ⟨fun hv => ?_, (header_eq_none_iff mt v).2⟩
  obtain ⟨bs, hbs, -⟩ := headerEmission_of_lt mt hv
  exact ⟨bs, hbs, tableBytes_of_header hbs, header_length_mem hbs, beValue_tail_of_header hbs⟩

/-- Settles O9: the octet is the concatenation of the two fields. -/
theorem packerKeepsBothFields : Obligations.PackerKeepsBothFields := by
  refine ⟨fun mt info => ⟨?_, pack_major mt info, pack_info mt info⟩, fun v info n => classify_info_le⟩
  rw [pack_eq_append, BitVec.toNat_append]

end Sys2Proof
end

section
/-! Proofs of the statements of the family 40_header.md, second part: acceptance of the header commands. -/

namespace Sys2Proof.Machine

open Sys2Proof.Safety (tableBytes)

/-- A ready block starts the emission of an encodable header (R13, R43). -/
theorem State.accept_headerEmission_of_lt {s : State} (hrst : s.rst = false) (hp : s.phase = .idle) (mt : BitVec 3)
    {u : Nat} (hu : u < 2 ^ 64) :
    ∃ bs, tableBytes mt.toNat u = some (bs.map BitVec.toNat) ∧
      s.accept (headerEmission mt u) = { s with
        res := .none, cnt := 0, serr := 0, obuf := bs, olen := bs.length, oidx := 0, phase := .emit } := by
  obtain ⟨bs, hbs, hemit⟩ := headerEmission_of_lt mt hu
  refine ⟨bs, tableBytes_of_header hbs, ?_⟩
  rw [hemit, State.accept_bytes (s.ready_iff.2 ⟨hrst, hp⟩)]
  rfl

/-- A ready block ends at once with `RANGE` for an unencodable magnitude (R43, R71). -/
theorem State.accept_headerEmission_of_ge {s : State} (hrst : s.rst = false) (hp : s.phase = .idle) (mt : BitVec 3)
    {u : Nat} (hu : 2 ^ 64 ≤ u) :
    s.accept (headerEmission mt u) = { s with res := .range, cnt := 0, serr := 0, phase := .idle } := by
  rw [(headerEmission_eq_range_iff mt u).2 hu, State.accept_range (s.ready_iff.2 ⟨hrst, hp⟩)]
  rfl

/-- A header command whose view of the operand is encodable starts its header, whatever its domain. -/
theorem exec_hdrInstr_starts_header {s : State} (hrst : s.rst = false) (hp : s.phase = .idle) (dom : Dom)
    (mt : BitVec 3) (x : Nat) (hu : uview s.cfg dom x < 2 ^ 64) :
    ∃ bs, tableBytes mt.toNat (uview s.cfg dom x) = some (bs.map BitVec.toNat) ∧
      exec (hdrInstr dom mt x) s = .next { s with
        res := .none, cnt := 0, serr := 0, obuf := bs, olen := bs.length, oidx := 0, phase := .emit } := by
  obtain ⟨bs, htable, haccept⟩ := State.accept_headerEmission_of_lt hrst hp mt hu
  exact ⟨bs, htable, by rw [exec_hdrInstr, haccept]⟩

/-- A header command whose domain has the magnitude accepts that magnitude's header: the domain has no other effect. -/
theorem exec_hdrInstr_of_lt {s : State} {dom : Dom} {u : Nat} (hu : u < 2 ^ dom.width s.cfg) (mt : BitVec 3) :
    exec (hdrInstr dom mt u) s = .next (s.accept (headerEmission mt u)) := by
  rw [exec_hdrInstr, uview_of_lt hu]

/-- A transaction that decodes runs as the acceptance of its `Emission` (R43). -/
theorem exec_of_decode {c : Byte} {x : Nat} {i : Instr} (h : decode c x = .ok i) (s : State) :
    exec i s = .next (s.accept (emission s.cfg c x)) := by
  have hrun : runIssue ⟨c, x⟩ s = exec i s := by rw [runIssue, h]
  rw [← hrun, runIssue_eq_accept_emission]

end Sys2Proof.Machine

namespace Sys2Proof

open Machine

/-- Settles O14: a 32-bit view is always encodable. -/
theorem hdr32StartsItsHeader : Obligations.Hdr32StartsItsHeader := by
  intro s mt x hrst hp
  have hu : uview s.cfg .w32 x < 2 ^ 64 :=
    Nat.lt_trans (uview_lt s.cfg .w32 x) (show 2 ^ 32 < 2 ^ 64 by decide)
  simpa [hdrInstr] using exec_hdrInstr_starts_header hrst hp .w32 mt x hu

/-- Settles O15: a 64-bit view is always encodable. -/
theorem hdr64StartsItsHeader : Obligations.Hdr64StartsItsHeader := by
  intro s mt x hrst hp
  simpa [hdrInstr] using exec_hdrInstr_starts_header hrst hp .w64 mt x (uview_lt s.cfg .w64 x)

/-- Settles O16: the view is the port's whole width, so both outcomes of a header occur. -/
theorem hdrbigStartsItsHeaderOrEndsInRange : Obligations.HdrbigStartsItsHeaderOrEndsInRange := by
  intro s mt x hrst hp
  rw [← uview_wbig]
  refine ⟨exec_hdrInstr_starts_header hrst hp .wbig mt x, fun hu => ?_⟩
  have hexec := exec_hdrInstr .wbig mt x s
  rwa [State.accept_headerEmission_of_ge hrst hp mt hu] at hexec

/-- Settles O22: a magnitude that a domain has is the one its command sees, and the wider domains have it too. -/
theorem domainsAgree : Obligations.DomainsAgree := by
  intro s mt u
  have hw32 (h : u < 2 ^ 32) : exec (.hdr32 mt u) s = .next (s.accept (headerEmission mt u)) :=
    exec_hdrInstr_of_lt (dom := .w32) h mt
  have hw64 (h : u < 2 ^ 64) : exec (.hdr64 mt u) s = .next (s.accept (headerEmission mt u)) :=
    exec_hdrInstr_of_lt (dom := .w64) h mt
  have hwbig (h : u < 2 ^ s.cfg.bigw) : exec (.hdrbig mt u) s = .next (s.accept (headerEmission mt u)) :=
    exec_hdrInstr_of_lt (dom := .wbig) h mt
  have h64 (h : u < 2 ^ 32) : u < 2 ^ 64 := by omega
  have hbig (h : u < 2 ^ 64) : u < 2 ^ s.cfg.bigw :=
    Nat.lt_of_lt_of_le h (Nat.pow_le_pow_right (by decide) (Dom.width_le_bigw s.cfg .w64))
  refine ⟨fun h => ?_, fun h => ?_, fun hge h => ?_⟩
  · rw [hw32 h, hw64 (h64 h), hwbig (hbig (h64 h))]
    exact ⟨rfl, rfl⟩
  · rw [hw64 h, hwbig (hbig h)]
  · rw [hwbig h, (headerEmission_eq_range_iff mt u).2 hge]

/-- Settles O26: a decoded transaction runs as its `Emission`; that is `illegal` where the decoder rejects the byte, and
its list results are headers. -/
theorem everyCommandComputesEmission : Obligations.EveryCommandComputesEmission :=
  ⟨fun s _ _ _ h => exec_of_decode h s,
    fun cfg c x => (emission_eq_illegal_iff cfg c x).trans (decodeByte_eq_error_iff c),
    fun _ _ _ _ => emission_bytes_length⟩

end Sys2Proof
end

section
/-! Proofs of the statements of the family 41_signed.md, first part: the sign split in exact integers, and the reader of
signed headers. -/

namespace Sys2Proof.Machine

open Sys2Proof.Safety (tableBytes readHeader signedValue canonicalInt)

/-! ## The signed views in plain numbers (R32) -/

theorem sview_eq_signedValue (cfg : Config) (dom : Dom) (x : Nat) :
    sview cfg dom x = signedValue (dom.width cfg) x := by
  have hw : 2 * 2 ^ (dom.width cfg - 1) = 2 ^ dom.width cfg := mul_pow_sub_one (dom.width_pos cfg).ne' 2
  rw [sview, opndField, BitVec.toInt_eq_toNat_cond, BitVec.toNat_ofNat, signedValue]
  exact if_congr (by omega) rfl (by simp)

/-- A number below the sign bit of a width is the value it has there. -/
theorem signedValue_of_lt {w n : Nat} (h : n < 2 ^ (w - 1)) : signedValue w n = n := by
  have hle : 2 ^ (w - 1) ≤ 2 ^ w := Nat.pow_le_pow_right (by decide) (Nat.sub_le w 1)
  rw [signedValue, Nat.mod_eq_of_lt (Nat.lt_of_lt_of_le h hle), if_pos h]

/-! ## The sign split (R48) -/

theorem signedSplit_major_of_neg {n : Int} (mode : NegMode) (h : n < 0) : (signedSplit n mode).1 = 1#3 := by
  cases mode with
  | abs => rw [signedSplit_abs h]
  | minus1 => rw [signedSplit_minus1 h]

/-- R48: in two's complement `-1-n` is the bitwise complement. -/
theorem toNat_neg_one_sub_toInt {w : Nat} {b : BitVec w} (h : b.toInt < 0) :
    (-1 - b.toInt).toNat = (~~~b).toNat := by
  have htop : ¬ 2 * b.toNat < 2 ^ w := Nat.not_lt.2 (BitVec.toInt_neg_iff.1 h)
  rw [BitVec.toInt_eq_toNat_cond, if_neg htop, BitVec.toNat_not]
  omega

/-- Under `MINUS1` the canonical transform undoes the split (R52). -/
theorem canonicalInt_signedSplit_minus1 (n : Int) :
    canonicalInt (signedSplit n .minus1).1 (signedSplit n .minus1).2 = n := by
  by_cases h : 0 ≤ n
  · rw [signedSplit_of_nonneg .minus1 h]
    simpa [canonicalInt] using h
  · rw [signedSplit_minus1 (Int.not_le.1 h)]
    simp only [canonicalInt, if_true]
    omega

/-- Under `ABS` the canonical transform is off by one on the negative side (R52). -/
theorem canonicalInt_signedSplit_abs {n : Int} (h : n < 0) :
    canonicalInt (signedSplit n .abs).1 (signedSplit n .abs).2 = n - 1 := by
  rw [signedSplit_abs h]
  simp only [canonicalInt, if_true]
  omega

/-- Under `ABS` no value is split into major type 1 and magnitude 0, the header `0x20` (R52). -/
theorem signedSplit_abs_ne (n : Int) : signedSplit n .abs ≠ (1#3, 0) := by
  by_cases h : 0 ≤ n
  · rw [signedSplit_of_nonneg .abs h]
    simp
  · rw [signedSplit_abs (Int.not_le.1 h)]
    simp only [ne_eq, Prod.mk.injEq, true_and]
    omega

/-- The magnitude is unencodable exactly outside the range of R51. -/
theorem signedSplit_magnitude_ge_iff (n : Int) (mode : NegMode) :
    2 ^ 64 ≤ (signedSplit n mode).2 ↔
      2 ^ 64 ≤ n ∨ (mode = .abs ∧ n ≤ -2 ^ 64) ∨ (mode = .minus1 ∧ n ≤ -2 ^ 64 - 1) := by
  by_cases h : 0 ≤ n
  · rw [signedSplit_of_nonneg mode h]
    dsimp only
    omega
  · cases mode with
    | abs =>
      rw [signedSplit_abs (Int.not_le.1 h)]
      simp only [true_and, reduceCtorEq, false_and, or_false]
      omega
    | minus1 =>
      rw [signedSplit_minus1 (Int.not_le.1 h)]
      simp only [true_and, reduceCtorEq, false_and, false_or]
      omega

/-- A value of at most 64 bits is always encodable: its magnitude is at most 2^63 (R49, R50). -/
theorem signedSplit_magnitude_lt {cfg : Config} {dom : Dom} (hw : dom.width cfg ≤ 64) (x : Nat) (mode : NegMode) :
    (signedSplit (signedValue (dom.width cfg) x) mode).2 < 2 ^ 64 := by
  rw [← sview_eq_signedValue]
  have hpow : (2 : Int) ^ (dom.width cfg - 1) ≤ 2 ^ 63 := pow_le_pow_right₀ (by decide) (by omega)
  obtain ⟨hlo, hhi⟩ := sview_limits cfg dom x
  have hmag := signedSplit_magnitude_le (sview cfg dom x) mode
  omega

/-- The table row of a split, sign by sign and mode by mode. -/
theorem tableBytes_signedSplit {n : Int} {mode : NegMode} {row : List Nat}
    (h : tableBytes (signedSplit n mode).1.toNat (signedSplit n mode).2 = some row) :
    (0 ≤ n → tableBytes 0 n.toNat = some row) ∧
    (n < 0 → mode = .abs → tableBytes 1 (-n).toNat = some row) ∧
    (n < 0 → mode = .minus1 → tableBytes 1 (-1 - n).toNat = some row) := by
  refine ⟨fun hn => ?_, ?_, ?_⟩
  · rwa [signedSplit_of_nonneg mode hn] at h
  · rintro hn rfl
    rwa [signedSplit_abs hn] at h
  · rintro hn rfl
    rwa [signedSplit_minus1 hn] at h

/-! ## Signed headers -/

theorem signedEmission_of_nonneg (n : Nat) (mode : NegMode) : signedEmission n mode = headerEmission 0 n := by
  rw [signedEmission, signedSplit_of_nonneg mode (Int.natCast_nonneg n)]
  rfl

theorem signedEmission_eq_bytes_iff (n : Int) (mode : NegMode) (bs : List Byte) :
    signedEmission n mode = .bytes bs ↔ header (signedSplit n mode).1 (signedSplit n mode).2 = some bs :=
  headerEmission_eq_bytes_iff _ _ bs

/-- The first byte of a header carries its major type (R41). -/
theorem header_head_fieldMT {mt : BitVec 3} {v : Nat} {bs : List Byte} (h : header mt v = some bs) :
    bs.head?.map fieldMT = some mt := by
  obtain ⟨info, n, -, rfl⟩ := header_cases h
  exact congrArg some (pack_major mt info)

/-- A reader of headers recovers the split from the bytes. -/
theorem readHeader_of_signedEmission {n : Int} {mode : NegMode} {bs : List Byte}
    (h : signedEmission n mode = .bytes bs) (rest : List Byte) :
    readHeader (bs ++ rest) = some ((signedSplit n mode).1, (signedSplit n mode).2, rest) :=
  readerRecoversHeader _ _ bs rest ((signedEmission_eq_bytes_iff n mode bs).1 h)

/-- Equal bytes come from equal splits. -/
theorem signedSplit_eq_of_signedEmission {n k : Int} {mode : NegMode} {bs : List Byte}
    (hn : signedEmission n mode = .bytes bs) (hk : signedEmission k mode = .bytes bs) :
    signedSplit k mode = signedSplit n mode := by
  have hread := (readHeader_of_signedEmission hk []).symm.trans (readHeader_of_signedEmission hn [])
  simpa [Prod.ext_iff] using hread

/-- R52, third law: under `MINUS1` distinct values have distinct bytes. -/
theorem signedEmission_minus1_injective {n k : Int} {bs : List Byte} (hn : signedEmission n .minus1 = .bytes bs)
    (hk : signedEmission k .minus1 = .bytes bs) : k = n := by
  rw [← canonicalInt_signedSplit_minus1 k, signedSplit_eq_of_signedEmission hn hk, canonicalInt_signedSplit_minus1]

/-- R52, fourth law: the reader would split `0x20` as no value is split under `ABS`. -/
theorem signedEmission_abs_ne {n : Int} {bs : List Byte} (h : signedEmission n .abs = .bytes bs) : bs ≠ [0x20#8] := by
  rintro rfl
  have hread := readHeader_of_signedEmission h []
  have h20 : readHeader ([0x20#8] ++ []) = some (1#3, 0, []) := by decide
  rw [h20, Option.some.injEq, Prod.mk.injEq, Prod.mk.injEq] at hread
  obtain ⟨hmajor, hmag, -⟩ := hread
  exact signedSplit_abs_ne n (Prod.ext hmajor.symm hmag.symm)

end Sys2Proof.Machine

namespace Sys2Proof

open Machine

/-- Settles O12: the split case by case, and the complement of a negative word. -/
theorem signSplit : Obligations.SignSplit := by
  refine ⟨fun n mode h => ?_, fun n h => ?_, fun n h => ?_, fun w b h => ?_⟩
  · rw [signedSplit_of_nonneg mode h]
    exact ⟨rfl, Int.toNat_of_nonneg h⟩
  · rw [signedSplit_abs h]
    exact ⟨rfl, Int.toNat_of_nonneg (by omega)⟩
  · rw [signedSplit_minus1 h]
    exact ⟨rfl, Int.toNat_of_nonneg (by omega)⟩
  · rw [signedSplit_minus1 h]
    exact toNat_neg_one_sub_toInt h

end Sys2Proof
end

section
/-! Proofs of the statements of the family 41_signed.md, second part: acceptance of the signed commands. -/

namespace Sys2Proof.Machine

open Sys2Proof.Safety (tableBytes signedValue)

theorem exec_intInstr_signedValue (dom : Dom) (x : Nat) (s : State) :
    exec (intInstr dom x) s =
      .next (s.accept (signedEmission (signedValue (dom.width s.cfg) x) s.cfg.negMode)) := by
  rw [exec_intInstr, sview_eq_signedValue]

/-- A non-negative value of a signed domain is accepted as `HDR64 0, n` (R52, first law). -/
theorem exec_intInstr_eq_hdr64 {s : State} {dom : Dom} {n : Nat} (h : n < 2 ^ (dom.width s.cfg - 1))
    (h64 : n < 2 ^ 64) : exec (intInstr dom n) s = exec (.hdr64 0 n) s := by
  have hhdr : exec (.hdr64 0 n) s = .next (s.accept (headerEmission 0 n)) :=
    exec_hdrInstr_of_lt (dom := .w64) h64 0
  rw [exec_intInstr_signedValue, signedValue_of_lt h, signedEmission_of_nonneg, hhdr]

/-- A signed command whose value is encodable starts its header, whatever its domain. -/
theorem exec_intInstr_starts_header {s : State} (hrst : s.rst = false) (hp : s.phase = .idle) {dom : Dom} {x : Nat}
    {n : Int} (hn : n = signedValue (dom.width s.cfg) x) (hmag : (signedSplit n s.cfg.negMode).2 < 2 ^ 64) :
    ∃ bs,
      (0 ≤ n → tableBytes 0 n.toNat = some (bs.map BitVec.toNat)) ∧
      (n < 0 → s.cfg.negMode = .abs → tableBytes 1 (-n).toNat = some (bs.map BitVec.toNat)) ∧
      (n < 0 → s.cfg.negMode = .minus1 → tableBytes 1 (-1 - n).toNat = some (bs.map BitVec.toNat)) ∧
      exec (intInstr dom x) s = .next { s with
        res := .none, cnt := 0, serr := 0, obuf := bs, olen := bs.length, oidx := 0, phase := .emit } := by
  obtain ⟨bs, htable, haccept⟩ := State.accept_headerEmission_of_lt hrst hp (signedSplit n s.cfg.negMode).1 hmag
  obtain ⟨hnonneg, habs, hminus1⟩ := tableBytes_signedSplit htable
  refine ⟨bs, hnonneg, habs, hminus1, ?_⟩
  rw [exec_intInstr_signedValue, ← hn, signedEmission, haccept]

/-- A signed command whose value is unencodable ends at once with `RANGE` (R51, R71). -/
theorem exec_intInstr_ends_in_range {s : State} (hrst : s.rst = false) (hp : s.phase = .idle) {dom : Dom} {x : Nat}
    {n : Int} (hn : n = signedValue (dom.width s.cfg) x) (hmag : 2 ^ 64 ≤ (signedSplit n s.cfg.negMode).2) :
    exec (intInstr dom x) s = .next { s with res := .range, cnt := 0, serr := 0, phase := .idle } := by
  rw [exec_intInstr_signedValue, ← hn, signedEmission, State.accept_headerEmission_of_ge hrst hp _ hmag]

end Sys2Proof.Machine

namespace Sys2Proof

open Machine

/-- Settles O13: the bytes give back the split, the split gives back the value under `MINUS1`, and no split under `ABS`
is that of `0x20`. -/
theorem lawsOfTheSignedCommands : Obligations.LawsOfTheSignedCommands := by
  refine ⟨fun s x => ?_, fun s n => ?_, fun n mode bs hneg h => ?_, fun n bs rest h => ?_, fun n bs rest h => ?_⟩
  · exact ⟨exec_intInstr_signedValue .w32 x s, exec_intInstr_signedValue .w64 x s, exec_intInstr_signedValue .wbig x s⟩
  · have hbig : 2 ^ 64 ≤ 2 ^ (s.cfg.bigw - 1) :=
      Nat.pow_le_pow_right (by decide) (Nat.le_sub_one_of_lt s.cfg.bigw_ge)
    exact ⟨fun hn => exec_intInstr_eq_hdr64 (dom := .w32) hn (by omega),
      fun hn => exec_intInstr_eq_hdr64 (dom := .w64) hn (by omega),
      fun hn => exec_intInstr_eq_hdr64 (dom := .wbig) (Nat.lt_of_lt_of_le hn hbig) hn⟩
  · rw [header_head_fieldMT ((signedEmission_eq_bytes_iff n mode bs).1 h), signedSplit_major_of_neg mode hneg]
  · exact ⟨⟨_, _, readHeader_of_signedEmission h rest, canonicalInt_signedSplit_minus1 n⟩,
      fun k hk => signedEmission_minus1_injective h hk⟩
  · exact ⟨signedEmission_abs_ne h,
      fun hneg => ⟨_, _, readHeader_of_signedEmission h rest, canonicalInt_signedSplit_abs hneg⟩⟩

/-- Settles O17: a 32-bit value is always encodable. -/
theorem int32StartsItsHeader : Obligations.Int32StartsItsHeader := by
  intro s x hrst hp
  have hw : Dom.w32.width s.cfg ≤ 64 := show 32 ≤ 64 by decide
  exact exec_intInstr_starts_header hrst hp (dom := .w32) rfl (signedSplit_magnitude_lt hw x s.cfg.negMode)

/-- Settles O18: a 64-bit value is always encodable. -/
theorem int64StartsItsHeader : Obligations.Int64StartsItsHeader := by
  intro s x hrst hp
  have hw : Dom.w64.width s.cfg ≤ 64 := Nat.le_refl 64
  exact exec_intInstr_starts_header hrst hp (dom := .w64) rfl (signedSplit_magnitude_lt hw x s.cfg.negMode)

/-- Settles O19: the range of R51 is the one outside which the magnitude is unencodable. -/
theorem intbigStartsItsHeaderOrEndsInRange : Obligations.IntbigStartsItsHeaderOrEndsInRange := by
  intro s x n hrst hp hn
  rw [← signedSplit_magnitude_ge_iff, Nat.not_le]
  exact ⟨exec_intInstr_ends_in_range hrst hp (dom := .wbig) hn, exec_intInstr_starts_header hrst hp (dom := .wbig) hn⟩

end Sys2Proof
end

section
/-! Proofs of the statements of the family 42_value_kinds.md: acceptance of the pseudo-commands. -/

namespace Sys2Proof

/-- The expansion table of R55 to R61, read with the major type as a number. -/
theorem Instr.expand_eq_hdr64_of_mem {v : Nat} {i : Instr} {mt : Nat}
    (h : (i, mt) ∈ [(Instr.uint v, 0), (.bstr v, 2), (.tstr v, 3), (.array v, 4), (.map v, 5), (.tag v, 6),
      (.simple v, 7)]) :
    ∃ major : BitVec 3, major.toNat = mt ∧ i.expand = .hdr64 major v := by
  simp only [List.mem_cons, List.not_mem_nil, or_false, Prod.mk.injEq] at h
  obtain ⟨rfl, rfl⟩ | ⟨rfl, rfl⟩ | ⟨rfl, rfl⟩ | ⟨rfl, rfl⟩ | ⟨rfl, rfl⟩ | ⟨rfl, rfl⟩ | ⟨rfl, rfl⟩ := h
  · exact ⟨0, rfl, rfl⟩
  · exact ⟨2, rfl, rfl⟩
  · exact ⟨3, rfl, rfl⟩
  · exact ⟨4, rfl, rfl⟩
  · exact ⟨5, rfl, rfl⟩
  · exact ⟨6, rfl, rfl⟩
  · exact ⟨7, rfl, rfl⟩

/-- Settles O20: a pseudo-command is its expansion, and that is the `HDR64` of its major type. -/
theorem kindsStartTheirHeaders : Obligations.KindsStartTheirHeaders := by
  intro s v i mt hrst hp hmem
  obtain ⟨major, rfl, hexpand⟩ := Instr.expand_eq_hdr64_of_mem hmem
  rw [kindIsItsExpansion i s, hexpand]
  exact hdr64StartsItsHeader s major v hrst hp

end Sys2Proof
end

section
/-! Proofs of the statements of the family 60_exceptions.md: how a command ends with `RANGE` or `SINK`, and what a
busy block does with a command. -/

namespace Sys2Proof.Machine

/-! ## Which outcomes are out of range -/

/-- A magnitude of at most 64 bits is encodable (R44, R45, R71). -/
theorem headerEmission_uview_ne_range {cfg : Config} {dom : Dom} (hw : dom.width cfg ≤ 64) (mt : BitVec 3) (x : Nat) :
    headerEmission mt (uview cfg dom x) ≠ .range := by
  have hlt : uview cfg dom x < 2 ^ 64 := (uview_lt cfg dom x).trans_le (Nat.pow_le_pow_right (by decide) hw)
  rw [Ne, headerEmission_eq_range_iff]
  exact Nat.not_le.2 hlt

/-- A signed value of at most 64 bits is encodable in both modes (R49, R50, R71). -/
theorem signedEmission_sview_ne_range {cfg : Config} {dom : Dom} (hw : dom.width cfg ≤ 64) (x : Nat) (mode : NegMode) :
    signedEmission (sview cfg dom x) mode ≠ .range := by
  rw [sview_eq_signedValue, signedEmission, Ne, headerEmission_eq_range_iff]
  exact Nat.not_le.2 (signedSplit_magnitude_lt hw x mode)

/-- R71: only the two commands of the arbitrary-precision domain have the outcome `range`. -/
theorem hdrbig_or_intbig_of_outcomeOf_range {cfg : Config} {i : Instr} (h : outcomeOf cfg i = .range) :
    (∃ mt x, i = .hdrbig mt x) ∨ ∃ x, i = .intbig x := by
  have h32 : Dom.w32.width cfg ≤ 64 := show 32 ≤ 64 by decide
  have h64 : Dom.w64.width cfg ≤ 64 := Nat.le_refl 64
  cases i with
  | hdrbig mt x => exact .inl ⟨mt, x, rfl⟩
  | intbig x => exact .inr ⟨x, rfl⟩
  | hdr32 mt x => exact absurd h (headerEmission_uview_ne_range h32 mt x)
  | int32 x => exact absurd h (signedEmission_sview_ne_range h32 x cfg.negMode)
  | int64 x => exact absurd h (signedEmission_sview_ne_range h64 x cfg.negMode)
  | hdr64 _ x | uint x | bstr x | tstr x | array x | map x | tag x | simple x =>
    exact absurd h (headerEmission_uview_ne_range h64 _ x)

/-- A ready block ends an acceptance with the result `RANGE` only for the outcome `range` (R13). -/
theorem State.accept_res_eq_range_iff {s : State} (hready : s.ready = true) (o : Emission) :
    (s.accept o).res = .range ↔ o = .range := by
  cases o with
  | illegal => simp [State.accept_illegal hready]
  | range => simp [State.accept_range hready]
  | bytes bs => simp [State.accept_bytes hready]

end Sys2Proof.Machine

namespace Sys2Proof

open Machine

/-- Settles O24: the result tells the outcome, the outcome the command, and `range` starts no emission. -/
theorem onlyBigCommandsEndInRange : Obligations.OnlyBigCommandsEndInRange := by
  intro i s t hrst hp h hres
  have hready : s.ready = true := s.ready_iff.2 ⟨hrst, hp⟩
  rw [exec_eq_accept] at h
  obtain rfl := Host.Outcome.next.inj h
  have ho : outcomeOf s.cfg i = .range := (State.accept_res_eq_range_iff hready _).1 hres
  refine ⟨hdrbig_or_intbig_of_outcomeOf_range ho, ?_⟩
  rw [ho, State.accept_range hready]
  exact ⟨rfl, rfl, rfl, rfl, State.offered_of_idle rfl⟩

/-- Settles O33: the run to the failed byte ends in `byteFailed`, and a code that fits is recorded as it is. -/
theorem commandRunsToSinkFailure : Obligations.CommandRunsToSinkFailure := by
  intro s q rest bs k e later hrst hp hi ho hk he ht
  rw [steps_to_failed_byte hrst hp hi ho hk ht, State.byteFailed]
  simp only [State.emittedUpTo, serrOf_eq s.cfg he, State.finish]

/-- Settles O29: presenting only queues, and the turn of an encoder that emits changes nothing. -/
theorem busyCommandWaits : Obligations.BusyCommandWaits := by
  obtain ⟨-, hbusy, hpresent⟩ := issueAndCapture
  intro s q ts hp ht
  have hencoder := hbusy { s with turns := .encoder :: ts, issues := s.issues ++ [q] } hp (.inr rfl)
  rw [steps_succ 1 (hpresent s q _ ht), steps_succ 0 hencoder, steps_zero]
  rfl

end Sys2Proof
end

section
/-! Proofs of the statements of the family 70_reset_and_hazards.md: `RST`, the host's writes, the one fault, and the
host's duties. -/

namespace Sys2Proof.Machine

/-! ## A block in reset (R80) -/

theorem State.offered_of_rst {s : State} (hrst : s.rst = true) : s.offered = none := by
  simp [State.offered, hrst]

theorem State.ready_of_rst {s : State} (hrst : s.rst = true) : s.ready = false := by
  simp [State.ready, hrst]

theorem sinkAnswers_of_rst {s : State} (hrst : s.rst = true) (r : Answer) : sinkAnswers r s = .next s := by
  simp [sinkAnswers, hrst]

/-- R80: in reset only the schedule moves when the encoder does. -/
theorem step_encoder_of_rst {s : State} (hrst : s.rst = true) (ht : s.turns = [] ∨ s.turns.head? = some .encoder) :
    step s = .next s.moving := by
  rw [step_of_encoder ht, encoderTurn_not_ready (s := s.moving) (State.ready_of_rst hrst)]

/-- R81: in reset only the schedule moves when the sink answers. -/
theorem step_answer_of_rst {s : State} {r : Answer} (hrst : s.rst = true) (ht : s.turns.head? = some (.answer r)) :
    step s = .next s.moving := by
  obtain ⟨ts, hts⟩ := List.head?_eq_some_iff.1 ht
  rw [step_of_cons hts, State.moving, hts]
  exact sinkAnswers_of_rst (s := { s with turns := ts }) hrst r

/-! ## The byte in flight when `RST` is asserted (R81) -/

/-- A block that offers nothing adds nothing, whatever the sink does. -/
theorem State.assertRst_stream_of_idle {s : State} (hp : s.phase = .idle) (taken : Bool) :
    (s.assertRst taken).stream = s.stream := by
  simp [State.offered_of_idle hp]

/-- A byte in flight that the sink takes is the last one of the stream. -/
theorem State.assertRst_stream_of_emit {s : State} {b : Byte} (hrst : s.rst = false) (hp : s.phase = .emit)
    (hb : s.obuf[s.oidx]? = some b) : (s.assertRst true).stream = s.stream ++ [b] := by
  simp [State.offered_of_emit hrst hp, hb]

end Sys2Proof.Machine

namespace Sys2Proof.Safety

open Sys2Proof.Machine

/-! ## The invariant leaves a byte to offer (R16) -/

theorem EmittingOk.obuf_oidx_ne_none {s : State} (e : EmittingOk s) : s.obuf[s.oidx]? ≠ none := by
  have hlt : s.oidx < s.obuf.length := e.olen_eq ▸ e.oidx_lt
  simp [List.getElem?_eq_getElem hlt]

/-! ## The checker of duties at a header (R87) -/

/-- A header stands where a value is due and no payload byte is. -/
theorem dutiesKept_header_misplaced {need owed : Nat} (h : owed ≠ 0 ∨ need = 0) (mt : BitVec 3) (v : Nat)
    (rest : List Entry) : dutiesKept (.header mt v :: rest) need owed = false := by
  rcases h with howed | rfl
  · simp [dutiesKept, howed]
  · simp [dutiesKept]

theorem dutiesKept_header_of_nothing {mt : BitVec 3} {v : Nat} (h : dutyOf mt v = .nothing) (need : Nat)
    (rest : List Entry) : dutiesKept (.header mt v :: rest) (need + 1) 0 = dutiesKept rest need 0 := by
  simp [dutiesKept, h]

theorem dutiesKept_header_of_payload {mt : BitVec 3} {v n : Nat} (h : dutyOf mt v = .payload n) (need : Nat)
    (rest : List Entry) : dutiesKept (.header mt v :: rest) (need + 1) 0 = dutiesKept rest need n := by
  simp [dutiesKept, h]

theorem dutiesKept_header_of_values {mt : BitVec 3} {v n : Nat} (h : dutyOf mt v = .values n) (need : Nat)
    (rest : List Entry) : dutiesKept (.header mt v :: rest) (need + 1) 0 = dutiesKept rest (need + n) 0 := by
  simp [dutiesKept, h]

end Sys2Proof.Safety

namespace Sys2Proof

open Machine Safety

/-- Settles O42: a block in reset is not ready and offers nothing, so only the schedule moves; the release keeps the
reset values that the invariant names. -/
theorem resetHoldsTheBlock : Obligations.ResetHoldsTheBlock := by
  refine ⟨fun s hrst => ⟨State.offered_of_rst hrst, ?_⟩, fun s ts hi hrst ht => ?_⟩
  · rintro (hnil | hencoder | ⟨r, hanswer⟩)
    · exact step_encoder_of_rst hrst (.inl hnil)
    · exact step_encoder_of_rst hrst (.inr hencoder)
    · exact step_answer_of_rst hrst hanswer
  · obtain ⟨hidle, hstatus⟩ := hi.in_reset hrst
    exact ⟨_, step_of_cons ht, rfl, hidle, hstatus, rfl⟩

/-- Settles O47: the machine stops only where it emits with no byte at `OIDX`, which the invariant excludes. -/
theorem invariantStatesAlwaysStep : Obligations.InvariantStatesAlwaysStep := by
  intro s hi
  by_contra hstop
  obtain ⟨-, hemit, hnone, -⟩ := step_stops (not_exists.1 hstop)
  exact (hi.emitting hemit).obuf_oidx_ne_none hnone

/-- Settles O38: the host's turn is one update of the stream. -/
theorem hostWriteTouchesOnlyTheStream : Obligations.HostWriteTouchesOnlyTheStream :=
  fun _ _ _ ht => step_of_cons ht

/-- Settles O41: the step is the assertion of `RST`, which leaves a block in reset; the stream gains the byte in flight
or nothing. -/
theorem resetStopsTheBlock : Obligations.ResetStopsTheBlock := by
  intro s taken ts ht
  refine ⟨_, step_of_cons ht, rfl, rfl, State.offered_of_rst rfl, rfl, sinkAnswers_of_rst rfl, ?_, ?_, ?_⟩
  · rintro rfl
    rfl
  · rintro b rfl hrst hp hb
    exact State.assertRst_stream_of_emit (s := { s with turns := ts }) hrst hp hb
  · exact fun hp => State.assertRst_stream_of_idle (s := { s with turns := ts }) hp taken

/-- Settles O49: the duties are the table of R87, and the checker goes on from a header by the duty it announces. -/
theorem headersAnnounceTheirDuties : Obligations.HeadersAnnounceTheirDuties := by
  refine ⟨fun v => ⟨rfl, rfl, rfl, rfl, rfl, rfl, rfl, rfl⟩, fun need owed => ?_, fun n need owed rest => ?_,
    fun mt v need owed rest h => dutiesKept_header_misplaced h mt v rest, fun v need rest => ?_⟩
  · simp [dutiesKept]
  · simp [dutiesKept]
  · exact ⟨dutiesKept_header_of_nothing rfl need rest, dutiesKept_header_of_nothing rfl need rest,
      dutiesKept_header_of_payload rfl need rest, dutiesKept_header_of_payload rfl need rest,
      dutiesKept_header_of_values rfl need rest, dutiesKept_header_of_values rfl need rest,
      dutiesKept_header_of_values rfl need rest, dutiesKept_header_of_nothing rfl need rest⟩

end Sys2Proof
end
